-- ==== Sys2Proof/Word.lean ====
section
/-! DEFINITION. The word types of FXC: bit patterns of the widths that 30_encoding.md R40, R41 and R47 give. Bit 0 is the
least significant bit of each (00_scope.md R5); `BitVec.toInt` reads a pattern as the spec's `i32`, `BitVec.toNat` as its
`u32`. -/

namespace Sys2Proof

/-- An `i32` pattern: an operand field of a request or the result field of a response (R5, R40, R47). -/
abbrev Word := BitVec 32

/-- The command word `CW` of a request (R40, R41). -/
abbrev CommandWord := BitVec 16

/-- The immediate field `IMM6`, six bits read as a two's-complement number (R41, R44). -/
abbrev Imm6 := BitVec 6

end Sys2Proof
end

