-- ==== Sys2Proof/Config.lean ====
section
/-! DEFINITION. The values the spec leaves free. None has a body, so nothing can be proved of what it is. -/

namespace Sys2Proof

/-- The result field `R` of a response whose status is not `OK`: "any 32-bit pattern" (60_exceptions.md R131, U8), one for
each turn of the machine. Log 2. -/
opaque Config.unspecifiedResult : Nat → Word

/-- Which of the pending requests points at the requester to be served on a turn, when more than one requester has one
pending and none is overdue: "between different requesters no order is defined" (20_memory.md R35). Log 3. -/
opaque Config.schedule : Nat → Nat

/-- How many turns may pass before a request accepted on a turn is overdue. It is some number, and nothing bounds it: "a
pending request is eventually served" (70_reset_and_hazards.md R156). Log 3. -/
opaque Config.patience : Nat → Nat

end Sys2Proof
end

