-- ==== Sys2Proof/Syntax.lean ====
section
/-! DEFINITION. The request record (30_encoding.md R40) and the decoded request: one constructor of `Instr` per row of
spec/opcode_table.json, with the operands its format reads (R42, R43), under the document's names. -/

namespace Sys2Proof

/-- A request (R40): the command word and three operand fields, all four always present. -/
structure Request where
  /-- `CW`: opcode, immediate and reserved bits (R41). -/
  cw : CommandWord
  /-- `A`, the first operand. -/
  a : Word
  /-- `B`, the second operand. -/
  b : Word
  /-- `C`, the third operand. -/
  c : Word
deriving DecidableEq, Repr

/-- The ten commands (R43), each with the operands and the immediate its format reads (R42). -/
inductive Instr where
  /-- `MASKZ a` (R60). -/
  | maskz (a : Word)
  /-- `MASKNZ a` (R61). -/
  | masknz (a : Word)
  /-- `SEL mask, then_val, else_val` (R62). -/
  | sel (mask thenVal elseVal : Word)
  /-- `RDIVPOT x, exponent` (R70). -/
  | rdivpot (x : Word) (exponent : Imm6)
  /-- `SRMULPOT x, exponent` (R73). -/
  | srmulpot (x : Word) (exponent : Imm6)
  /-- `RHSUM a, b` (R76). -/
  | rhsum (a b : Word)
  /-- `FPMUL a, b` (R85). -/
  | fpmul (a b : Word)
  /-- `EXPR a` (R95). -/
  | expr (a : Word)
  /-- `EXPN a, K` (R100). -/
  | expn (a : Word) (k : Imm6)
  /-- `RCP1PX a` (R115). -/
  | rcp1px (a : Word)
deriving DecidableEq, Repr

end Sys2Proof
end

