-- ==== Sys2Proof/Decode.lean ====
section
/-! DEFINITION. Decoding and encoding of requests: the command word's fields (30_encoding.md R41), the formats and opcodes
(R42, R43), the illegal words (R45), and the layout of a request as one number that the fixed name `decodeTableWord` asks
for. -/

namespace Sys2Proof

/-- `OP`, bits 3:0 of the command word (R41). -/
def opField (cw : CommandWord) : BitVec 4 := cw.extractLsb' 0 4

/-- `IMM6`, bits 9:4 of the command word (R41). -/
def immField (cw : CommandWord) : Imm6 := cw.extractLsb' 4 6

/-- `RSV`, bits 15:10 of the command word (R41, R45). -/
def rsvField (cw : CommandWord) : BitVec 6 := cw.extractLsb' 10 6

/-- `RSV ++ IMM6 ++ OP` with `RSV = 0` (R41). -/
def commandWord (imm : Imm6) (op : BitVec 4) : CommandWord := (0#6 ++ imm) ++ op

/-- The four ways the one layout is used (R42). -/
inductive Format where
  /-- reads `A`; the immediate must be zero -/
  | U
  /-- reads `A`, `B`; the immediate must be zero -/
  | B
  /-- reads `A`, `B`, `C`; the immediate must be zero -/
  | T
  /-- reads `A` and the immediate -/
  | UI
deriving DecidableEq, Repr

/-- Whether the format reads operand field `B` (R42). -/
def Format.readsB : Format → Bool
  | .U => false
  | .B => true
  | .T => true
  | .UI => false

/-- Whether the format reads operand field `C` (R42). -/
def Format.readsC : Format → Bool
  | .U => false
  | .B => false
  | .T => true
  | .UI => false

/-- The opcode of an instruction (R43). -/
def Instr.opcode : Instr → BitVec 4
  | .maskz _ => 0#4
  | .masknz _ => 1#4
  | .sel _ _ _ => 2#4
  | .rdivpot _ _ => 3#4
  | .srmulpot _ _ => 4#4
  | .rhsum _ _ => 5#4
  | .fpmul _ _ => 6#4
  | .expr _ => 7#4
  | .expn _ _ => 8#4
  | .rcp1px _ => 9#4

/-- The format of an instruction (R42, R43). -/
def Instr.format : Instr → Format
  | .maskz _ => .U
  | .masknz _ => .U
  | .sel _ _ _ => .T
  | .rdivpot _ _ => .UI
  | .srmulpot _ _ => .UI
  | .rhsum _ _ => .B
  | .fpmul _ _ => .B
  | .expr _ => .U
  | .expn _ _ => .UI
  | .rcp1px _ => .U

/-- The immediate field of an instruction; zero where the format has none (R42). -/
def Instr.immediate : Instr → Imm6
  | .maskz _ => 0#6
  | .masknz _ => 0#6
  | .sel _ _ _ => 0#6
  | .rdivpot _ exponent => exponent
  | .srmulpot _ exponent => exponent
  | .rhsum _ _ => 0#6
  | .fpmul _ _ => 0#6
  | .expr _ => 0#6
  | .expn _ k => k
  | .rcp1px _ => 0#6

/-- Why a command word is none of the ten commands: the three cases of R45. Each is answered `IllegalCommand`. -/
inductive DecodeError where
  /-- R45 (a): a reserved bit is set. -/
  | reservedBitSet
  /-- R45 (b): the opcode is one of 10..15. -/
  | reservedOpcode
  /-- R45 (c): the format is `U`, `B` or `T` and the immediate is not zero. -/
  | immediateNotZero
deriving DecidableEq, Repr

/-- A command of format `U`, `B` or `T`: its immediate must be zero (R42, R45 (c)). -/
def requireNoImmediate (imm : Imm6) (i : Instr) : Except DecodeError Instr :=
  if imm = 0#6 then .ok i else .error .immediateNotZero

/-- The decoder (R45 and the first checks of R50, in the order of R50): reserved bits, then the opcode, then an immediate
that must be zero. A field the format does not read is not looked at (R46). -/
def decode (q : Request) : Except DecodeError Instr :=
  if rsvField q.cw ≠ 0#6 then .error .reservedBitSet
  else
    match (opField q.cw).toNat with
    | 0 => requireNoImmediate (immField q.cw) (.maskz q.a)
    | 1 => requireNoImmediate (immField q.cw) (.masknz q.a)
    | 2 => requireNoImmediate (immField q.cw) (.sel q.a q.b q.c)
    | 3 => .ok (.rdivpot q.a (immField q.cw))
    | 4 => .ok (.srmulpot q.a (immField q.cw))
    | 5 => requireNoImmediate (immField q.cw) (.rhsum q.a q.b)
    | 6 => requireNoImmediate (immField q.cw) (.fpmul q.a q.b)
    | 7 => requireNoImmediate (immField q.cw) (.expr q.a)
    | 8 => .ok (.expn q.a (immField q.cw))
    | 9 => requireNoImmediate (immField q.cw) (.rcp1px q.a)
    | _ => .error .reservedOpcode

/-- The request of an instruction: its command word (R41, R43) and its operands; an operand field it does not read is 0, the
convention of R52. -/
def encode (i : Instr) : Request :=
  let cw := commandWord i.immediate i.opcode
  match i with
  | .maskz a => ⟨cw, a, 0, 0⟩
  | .masknz a => ⟨cw, a, 0, 0⟩
  | .sel mask thenVal elseVal => ⟨cw, mask, thenVal, elseVal⟩
  | .rdivpot x _ => ⟨cw, x, 0, 0⟩
  | .srmulpot x _ => ⟨cw, x, 0, 0⟩
  | .rhsum a b => ⟨cw, a, b, 0⟩
  | .fpmul a b => ⟨cw, a, b, 0⟩
  | .expr a => ⟨cw, a, 0, 0⟩
  | .expn a _ => ⟨cw, a, 0, 0⟩
  | .rcp1px a => ⟨cw, a, 0, 0⟩

/-- A request laid out as one 112-bit number: `CW` in bits 15:0, then `A`, `B`, `C` in 47:16, 79:48, 111:80. The spec gives
the record no such layout (20_memory.md R30, `HOST_MAPPING`); it is the model's, DESIGN CHOICE, log 8. -/
def Request.ofBits (w : Nat) : Request :=
  ⟨BitVec.ofNat 16 w, BitVec.ofNat 32 (w >>> 16), BitVec.ofNat 32 (w >>> 48), BitVec.ofNat 32 (w >>> 80)⟩

/-- The instruction the decoder reads from the `nbits` low bits of `w`, every bit above them zero. -/
def decodeTableWord (nbits w : Nat) : Option Instr :=
  match decode (Request.ofBits (w % 2 ^ nbits)) with
  | .ok i => some i
  | .error _ => none

end Sys2Proof
end

