-- ==== Sys2Proof/Machine/State.lean ====
section
/-! DEFINITION. The state of the model. FXC itself holds no register, flag, memory cell or hidden state (10_state.md R20 to
R27); what the spec gives a machine model is the queue of requests not yet answered (R26, R28), and what the model adds is
the record of the responses delivered and two numbers of its own. -/

namespace Sys2Proof.Machine

/-- The status codes of a response, 60_exceptions.md R130; 5, 6 and 7 are never produced (U10). -/
inductive Status where
  /-- 0: the command was in contract; `R` holds its result. -/
  | ok
  /-- 1: the command word is malformed. -/
  | illegalCommand
  /-- 2: the exponent immediate of `RDIVPOT` or `SRMULPOT` is outside the legal range. -/
  | invalidExponent
  /-- 3: the `K` immediate of `EXPN` is outside 0..29. -/
  | invalidFormat
  /-- 4: operand `A` of `EXPR`, `EXPN` or `RCP1PX` is outside the command's domain. -/
  | outOfDomain
deriving DecidableEq, Repr

/-- The contract violations: the statuses that are faults (R131, R132). -/
inductive Violation where
  /-- a malformed command word (R45) -/
  | illegalCommand
  /-- an exponent immediate out of range (R79, R80) -/
  | invalidExponent
  /-- a `K` immediate out of range (R101) -/
  | invalidFormat
  /-- an operand out of the command's domain (R96, R101, R116) -/
  | outOfDomain
deriving DecidableEq, Repr

/-- What a requester may read of a response: the result if the status is `OK`, and only the violation otherwise, `R` being
unspecified then and not to be used (R47, R131). -/
inductive Answer where
  /-- status `OK` with its result -/
  | ok (r : Word)
  /-- a fault status; no result -/
  | fault (v : Violation)
deriving DecidableEq, Repr

/-- A response (30_encoding.md R47). -/
structure Response where
  /-- `R`: the result; defined only when `st` is `ok`. -/
  r : Word
  /-- `ST`: the status. -/
  st : Status
deriving DecidableEq, Repr

/-- A request accepted from a requester and not yet answered (10_state.md R28). Requesters are told apart by number; FXC
gives them no identity of its own (60_exceptions.md R145). -/
structure Submission where
  requester : Nat
  request : Request
  /-- The turn from which the request is overdue, and others may not be served before it any more. The model's own; it holds
  "a pending request is eventually served" (70_reset_and_hazards.md R156; log 3). -/
  due : Nat
deriving DecidableEq, Repr

/-- A response delivered to a requester (10_state.md R28, "emit"). -/
structure Delivery where
  requester : Nat
  response : Response
deriving DecidableEq, Repr

/-- The state of the model: the spec's queue of pending requests, and the model's own record and counters. -/
structure State where
  /-- The requests accepted and not yet answered, oldest first, of every requester (R26, R28, 20_memory.md R35). -/
  pending : List Submission
  /-- The responses delivered so far, oldest first. The model's own record of the output (log 4): no step reads it. -/
  delivered : List Delivery
  /-- The requester whose request is in service; it tells `exec` where the response goes. The model's own (log 5). -/
  serving : Nat
  /-- The number of requests taken so far, the argument of the free values of Config. The model's own (log 5). -/
  turn : Nat
deriving DecidableEq, Repr

/-- Right after reset FXC is idle (70_reset_and_hazards.md R150, R151): nothing is pending. Nothing has been delivered, and
the model's own numbers start at 0 (logs 4 and 5). -/
def State.reset : State where
  pending := []
  delivered := []
  serving := 0
  turn := 0

/-- The reasons for which the machine stops: none. A contract violation is answered in the response and FXC goes on
(60_exceptions.md R131, R137), and it has "no hang and no stuck state of its own" (70_reset_and_hazards.md R156). Nobody
raises a stop; having none is safe (log 1). -/
inductive Fault where
deriving DecidableEq, Repr

/-- The reasons for which the model declines an instruction. -/
inductive Refusal where
  /-- The instruction has no meaning yet. Raised by an arm of `exec` that gives none; every arm gives one, so nobody raises
  it. Safe. -/
  | notModelled (mnemonic : String)
deriving DecidableEq, Repr

end Sys2Proof.Machine
end

