-- ==== Sys2Proof/Machine/Operands.lean ====
section
/-! DEFINITION. How an operand is read (00_scope.md R5 to R8, 30_encoding.md R44): the immediate, and the integer
primitives that every command rule is written in. All formulas are evaluated in `Int`, the spec's `Z`. -/

namespace Sys2Proof.Machine

/-- `INT32_MIN` (R5). -/
def int32Min : Word := BitVec.ofInt 32 (-2147483648)

/-- `INT32_MAX` (R5). -/
def int32Max : Word := BitVec.ofInt 32 2147483647

/-- `ALL_ONES` (R8). -/
def allOnes : Word := 0xFFFFFFFF#32

/-- `ALL_ZEROS` (R8). -/
def allZeros : Word := 0#32

/-- `IMM = sext_32(CW[9:4])`: the six bits as a signed number in −32..31, neither scaled nor shifted (R44). -/
def immValue (imm : Imm6) : Int := imm.toInt

/-- `wrap32(n)`: the `i32` congruent to `n` modulo `2^32` (R6). -/
def wrap32 (n : Int) : Word := BitVec.ofInt 32 n

/-- `add32` (R7). -/
def add32 (a b : Word) : Word := wrap32 (a.toInt + b.toInt)

/-- `sub32` (R7). -/
def sub32 (a b : Word) : Word := wrap32 (a.toInt - b.toInt)

/-- `neg32` (R7). -/
def neg32 (a : Word) : Word := wrap32 (-a.toInt)

/-- `asr(x, n) = floor(x / 2^n)` (R7). -/
def asr (x : Int) (n : Nat) : Int := x / 2 ^ n

/-- `shl32(x, n) = wrap32(x * 2^n)` (R7). -/
def shl32 (x : Word) (n : Nat) : Word := wrap32 (x.toInt * 2 ^ n)

/-- `tdiv(n, d)`, division truncating toward zero, for `d > 0` (R7). -/
def tdiv (n d : Int) : Int := if n ≥ 0 then n / d else -((-n) / d)

/-- `and32` (R8). -/
def and32 (a b : Word) : Word := a &&& b

/-- `or32` (R8). -/
def or32 (a b : Word) : Word := a ||| b

/-- `not32` (R8). -/
def not32 (a : Word) : Word := ~~~a

end Sys2Proof.Machine
end

