-- ==== Sys2Proof/Machine/Flags.lean ====
section
/-! DEFINITION. FXC has no flags (10_state.md R22). The one condition it reports about a command is the status of the
response; this file computes it: the code of each status (60_exceptions.md R130) and the contract checks of R132 that are
made after the word has decoded, in the order of R135. -/

namespace Sys2Proof.Machine

/-- `ST` as the 3-bit field of the response (R130). -/
def Status.code : Status → BitVec 3
  | .ok => 0#3
  | .illegalCommand => 1#3
  | .invalidExponent => 2#3
  | .invalidFormat => 3#3
  | .outOfDomain => 4#3

/-- The status that reports a violation (R130). -/
def Violation.status : Violation → Status
  | .illegalCommand => .illegalCommand
  | .invalidExponent => .invalidExponent
  | .invalidFormat => .invalidFormat
  | .outOfDomain => .outOfDomain

/-- What a requester may read of a response: `R` only when the status is `OK` (R47, R131). -/
def Response.read (p : Response) : Answer :=
  match p.st with
  | .ok => .ok p.r
  | .illegalCommand => .fault .illegalCommand
  | .invalidExponent => .fault .invalidExponent
  | .invalidFormat => .fault .invalidFormat
  | .outOfDomain => .fault .outOfDomain

/-- `RDIVPOT`: `InvalidExponent` when `IMM < 0` (R79, R132). -/
def rdivpotCheck (imm : Imm6) : Option Violation :=
  if immValue imm < 0 then some .invalidExponent else none

/-- `SRMULPOT`: `InvalidExponent` when `IMM = −32` (R80, R132). -/
def srmulpotCheck (imm : Imm6) : Option Violation :=
  if immValue imm = -32 then some .invalidExponent else none

/-- `EXPR`: `OutOfDomain` unless `−2^29 ≤ A ≤ −1` (R96, R132). -/
def exprCheck (a : Word) : Option Violation :=
  if -2 ^ 29 ≤ a.toInt ∧ a.toInt ≤ -1 then none else some .outOfDomain

/-- `EXPN`: `InvalidFormat` when `IMM` is outside 0..29, then `OutOfDomain` when `A > 0` (R101, R132, R135). -/
def expnCheck (a : Word) (imm : Imm6) : Option Violation :=
  if immValue imm < 0 ∨ immValue imm > 29 then some .invalidFormat
  else if a.toInt > 0 then some .outOfDomain
  else none

/-- `RCP1PX`: `OutOfDomain` when `A < 0` (R116, R132). -/
def rcp1pxCheck (a : Word) : Option Violation :=
  if a.toInt < 0 then some .outOfDomain else none

/-- The answer of a command whose check is `check` and whose result is `r`: the fault if there is one, else the result. -/
def answerOf (check : Option Violation) (r : Word) : Answer :=
  match check with
  | some v => .fault v
  | none => .ok r

end Sys2Proof.Machine
end

