-- ==== Sys2Proof/Machine/Ops.lean ====
section
/-! DEFINITION. The operations on the state: issuing a request and resetting, the two things a host can do
(70_reset_and_hazards.md R153); taking the request to be served (20_memory.md R35); delivering a response, and taking a
fault (60_exceptions.md R131). FXC has no memory and no registers, so there are no operations on those (10_state.md). -/

namespace Sys2Proof.Machine

/-- A requester issues a request: it waits behind that requester's earlier ones (R35, R155). It arrives, and arrives as it
was sent: DESIGN CHOICE, log 14 (R153 leaves open whether the link can lose or corrupt a record). When it will be overdue is
the free value `Config.patience` (R156, log 3). -/
def State.issue (requester : Nat) (q : Request) (s : State) : State :=
  { s with pending := s.pending ++ [⟨requester, q, s.turn + Config.patience s.turn⟩] }

/-- The reset event (R150): every request accepted and not yet answered is discarded, and nothing else happens. -/
def State.resetEvent (s : State) : State :=
  { s with pending := [] }

/-- A request that has waited as long as it may. -/
def Submission.overdue (turn : Nat) (p : Submission) : Bool :=
  decide (p.due ≤ turn)

/-- Which requester is served on a turn, when `p` is the oldest of the pending requests `p :: ps`: that requester if it is
the only one with a request pending; else the requester of the oldest overdue request, so that every pending request is
eventually served (R156); else the requester of a pending request that the free value `Config.schedule` points at (R35:
between requesters no order is defined). -/
def chooseRequester (turn : Nat) (p : Submission) (ps : List Submission) : Nat :=
  if ps.all (fun q => q.requester == p.requester) then p.requester
  else
    match (p :: ps).find? (fun q => q.overdue turn) with
    | some q => q.requester
    | none => ((p :: ps).getD (Config.schedule turn % (p :: ps).length) p).requester

/-- The oldest pending request of a requester, and the pending requests without it. -/
def takeOldest (requester : Nat) : List Submission → Option (Submission × List Submission)
  | [] => none
  | p :: ps =>
    if p.requester = requester then some (p, ps)
    else
      match takeOldest requester ps with
      | some (q, rest) => some (q, p :: rest)
      | none => none

/-- The request to be served next, and the pending requests without it; nothing when FXC is idle (10_state.md R28). -/
def State.select (s : State) : Option (Submission × List Submission) :=
  match s.pending with
  | [] => none
  | p :: ps => takeOldest (chooseRequester s.turn p ps) (p :: ps)

/-- The request `sub` goes into service; `rest` stays pending. -/
def State.accept (sub : Submission) (rest : List Submission) (s : State) : State :=
  { s with pending := rest, serving := sub.requester, turn := s.turn + 1 }

/-- A response is delivered, whole, to the requester in service (20_memory.md R32, R35). It arrives, and arrives as it was
sent: DESIGN CHOICE, log 14. -/
def State.deliver (p : Response) (s : State) : State :=
  { s with delivered := s.delivered ++ [⟨s.serving, p⟩] }

/-- `return v`: `resp.R <- v; resp.ST <- OK` (30_encoding.md R50). -/
def State.returnResult (v : Word) (s : State) : State :=
  s.deliver ⟨v, .ok⟩

/-- Taking a fault, `raise Fault(c)`: a response with the fault's status and an unspecified `R`, and no other effect: no
state is saved, no mode changes, control goes nowhere (60_exceptions.md R131, R132, R136). There is no return from one and
nothing to restore (R137). -/
def State.raiseFault (v : Violation) (s : State) : State :=
  s.deliver ⟨Config.unspecifiedResult s.turn, v.status⟩

/-- The end of a command: its result is returned or its fault raised. -/
def State.respond (answer : Answer) (s : State) : State :=
  match answer with
  | .ok v => s.returnResult v
  | .fault v => s.raiseFault v

end Sys2Proof.Machine
end

