-- ==== Sys2Proof/Machine/BitSelect.lean ====
section
/-! DEFINITION. The bit-select commands, 40_bit_select.md. All three are total: no operand value faults. -/

namespace Sys2Proof.Machine

/-- `MASKZ(a)` (R60). -/
def maskz (a : Word) : Word := if a.toInt = 0 then allOnes else allZeros

/-- `MASKNZ(a) = not32(MASKZ(a))` (R61). -/
def masknz (a : Word) : Word := not32 (maskz a)

/-- `SEL(mask, then_val, else_val)`, bit by bit (R62); any pattern is a mask. -/
def sel (mask thenVal elseVal : Word) : Word :=
  or32 (and32 mask thenVal) (and32 (not32 mask) elseVal)

/-- `MASKZ` (R60). -/
def execMaskz (a : Word) (s : State) : Host.Outcome State Fault Refusal :=
  .next (s.respond (.ok (maskz a)))

/-- `MASKNZ` (R61). -/
def execMasknz (a : Word) (s : State) : Host.Outcome State Fault Refusal :=
  .next (s.respond (.ok (masknz a)))

/-- `SEL` (R62). -/
def execSel (mask thenVal elseVal : Word) (s : State) : Host.Outcome State Fault Refusal :=
  .next (s.respond (.ok (sel mask thenVal elseVal)))

end Sys2Proof.Machine
end

