-- ==== Sys2Proof/Machine/FpMult.lean ====
section
/-! DEFINITION. The saturating rounding fixed-point multiplier, 42_fp_mult.md. -/

namespace Sys2Proof.Machine

/-- `FPMUL(a, b)` (R85): the exact product, a nudge that depends on its sign, and a division by `2^31` truncating toward
zero (R87, C2; log 10). One pair saturates; for every other the quotient fits. -/
def fpmul (a b : Word) : Word :=
  if a = int32Min ∧ b = int32Min then int32Max
  else
    let ab := a.toInt * b.toInt
    let nudge : Int := if ab ≥ 0 then 2 ^ 30 else 1 - 2 ^ 30
    wrap32 (tdiv (ab + nudge) (2 ^ 31))

/-- `FPMUL` (R85). -/
def execFpmul (a b : Word) (s : State) : Host.Outcome State Fault Refusal :=
  .next (s.respond (.ok (fpmul a b)))

end Sys2Proof.Machine
end

