-- ==== Sys2Proof/Machine/PotScaling.lean ====
section
/-! DEFINITION. Power-of-two scaling and averaging, 41_pot_scaling.md. `RDIVPOT` and `RHSUM` round ties away from zero (R72,
R76); `FPMUL` does not and shares no rounding with them (R77). -/

namespace Sys2Proof.Machine

/-- `RDIVPOT(x, e)` for `0 ≤ e ≤ 31`, the bit-level form of R70. The sum never overflows. -/
def rdivpot (x : Word) (e : Nat) : Word :=
  let mask := wrap32 (2 ^ e - 1)
  let rem := and32 x mask
  let thr := asr mask.toInt 1 + (if x.toInt < 0 then 1 else 0)
  wrap32 (asr x.toInt e + (if rem.toInt > thr then 1 else 0))

/-- `SRMULPOT(x, e)` for `−31 ≤ e ≤ 31` (R73): a rounding divide for a negative exponent; otherwise a left shift that
saturates, silently, at the threshold. -/
def srmulpot (x : Word) (e : Int) : Word :=
  if e < 0 then rdivpot x (-e).toNat
  else
    let threshold : Int := 2 ^ (31 - e.toNat) - 1
    if x.toInt > threshold then int32Max
    else if x.toInt < -threshold then int32Min
    else shl32 x e.toNat

/-- `RHSUM(a, b)` (R76). -/
def rhsum (a b : Word) : Word :=
  let sum := a.toInt + b.toInt
  let sign : Int := if sum ≥ 0 then 1 else -1
  wrap32 (tdiv (sum + sign) 2)

/-- `RDIVPOT` (R70, R79). -/
def execRdivpot (x : Word) (exponent : Imm6) (s : State) : Host.Outcome State Fault Refusal :=
  .next (s.respond (answerOf (rdivpotCheck exponent) (rdivpot x (immValue exponent).toNat)))

/-- `SRMULPOT` (R73, R80). -/
def execSrmulpot (x : Word) (exponent : Imm6) (s : State) : Host.Outcome State Fault Refusal :=
  .next (s.respond (answerOf (srmulpotCheck exponent) (srmulpot x (immValue exponent))))

/-- `RHSUM` (R76). -/
def execRhsum (a b : Word) (s : State) : Host.Outcome State Fault Refusal :=
  .next (s.respond (.ok (rhsum a b)))

end Sys2Proof.Machine
end

