-- ==== Sys2Proof/Machine/Exponential.lean ====
section
/-! DEFINITION. The exponential commands, 43_exp.md. -/

namespace Sys2Proof.Machine

/-- `EXP_C = round(e^(−1/8) * 2^31)` (00_scope.md R15). -/
def expC : Word := wrap32 1895147668

/-- `ONE_THIRD = round(2^31 / 3)` (R15). -/
def oneThird : Word := wrap32 715827883

/-- `Q0_ONE_EIGHTH = 2^28` (R15). -/
def q0OneEighth : Word := wrap32 268435456

/-- `EXPR(a)` on its domain `−2^29 ≤ a ≤ −1`: the eight lines of R95 in their order. -/
def expr (a : Word) : Word :=
  let x := add32 a q0OneEighth
  let x2 := fpmul x x
  let x3 := fpmul x2 x
  let x4 := fpmul x2 x2
  let x4q := srmulpot x4 (-2)
  let t := add32 (fpmul (add32 x4q x3) oneThird) x2
  let p := srmulpot t (-1)
  add32 expC (fpmul expC (add32 x p))

/-- The ladder: the exponent of each rung and its multiplier, in the order of execution, −2 first (R103, R104). -/
def ladder : List (Int × Word) :=
  [(-2, wrap32 1672461947), (-1, wrap32 1302514674), (0, wrap32 790015084), (1, wrap32 290630308),
   (2, wrap32 39332535), (3, wrap32 720401), (4, wrap32 242)]

/-- One rung: if its guard `K > e` holds and bit `F + e` of `rem` is set, the running result is multiplied; otherwise it is
left untouched (R100, R104). -/
def ladderStep (k : Nat) (rem r : Word) (rung : Int × Word) : Word :=
  if (k : Int) > rung.1 ∧ rem.getLsbD (31 - (k : Int) + rung.1).toNat = true then fpmul r rung.2 else r

/-- `am`, the argument reduced into `[−1/4, 0)`, still in format `QK` (R100, R102). -/
def expnReduced (a : Word) (k : Nat) : Word :=
  let q := wrap32 (2 ^ (31 - k - 2))
  let mask := sub32 q 1
  sub32 (and32 a mask) q

/-- `EXPN(a, K)` for `0 ≤ K ≤ 29` and `a ≤ 0` (R100): reduction (R102), `EXPR`, ladder (R103, R104), clamp (R105), zero
input (R106). -/
def expn (a : Word) (k : Nat) : Word :=
  let am := expnReduced a k
  let a0 := srmulpot am k
  let rem := sub32 am a
  let r := ladder.foldl (ladderStep k rem) (expr a0)
  let r := if k > 5 ∧ a.toInt < -2 ^ (36 - k) then 0#32 else r
  if a.toInt = 0 then int32Max else r

/-- `EXPR` (R95, R96). -/
def execExpr (a : Word) (s : State) : Host.Outcome State Fault Refusal :=
  .next (s.respond (answerOf (exprCheck a) (expr a)))

/-- `EXPN` (R100, R101). -/
def execExpn (a : Word) (k : Imm6) (s : State) : Host.Outcome State Fault Refusal :=
  .next (s.respond (answerOf (expnCheck a k) (expn a (immValue k).toNat)))

end Sys2Proof.Machine
end

