-- ==== Sys2Proof/Machine/Reciprocal.lean ====
section
/-! DEFINITION. The Newton-Raphson reciprocal command, 44_reciprocal.md. -/

namespace Sys2Proof.Machine

/-- `Q0_ONE`, the `Q0` stand-in for the real 1 (00_scope.md R15). -/
def q0One : Word := int32Max

/-- `Q2_ONE = 2^29` (R15). -/
def q2One : Word := wrap32 536870912

/-- `C48_17 = round(48/17 * 2^29)` (R115). -/
def c48Over17 : Word := wrap32 1515870810

/-- `CNEG32_17 = round(−32/17 * 2^29)` (R115). -/
def cNeg32Over17 : Word := wrap32 (-1010580540)

/-- One Newton iteration, `x <- x + x * (1 - hd * x)` (R115, R117). -/
def newtonStep (hd x : Word) : Word :=
  let hx := fpmul hd x
  let om := sub32 q2One hx
  let d := srmulpot (fpmul x om) 2
  add32 x d

/-- `n` Newton iterations. -/
def newton (hd : Word) : Nat → Word → Word
  | 0, x => x
  | n + 1, x => newton hd n (newtonStep hd x)

/-- `half_denominator = (a + 1)/2` as a `Q0` raw (R115). -/
def halfDenominator (a : Word) : Word := rhsum a q0One

/-- The linear seed `48/17 − (32/17) * hd` as a `Q2` raw (R115). -/
def reciprocalSeed (hd : Word) : Word := add32 c48Over17 (fpmul hd cNeg32Over17)

/-- `RCP1PX(a)` on its domain `0 ≤ a` (R115): exactly three iterations, then the halving and change of format. -/
def rcp1px (a : Word) : Word :=
  let hd := halfDenominator a
  srmulpot (newton hd 3 (reciprocalSeed hd)) 1

/-- `RCP1PX` (R115, R116). -/
def execRcp1px (a : Word) (s : State) : Host.Outcome State Fault Refusal :=
  .next (s.respond (answerOf (rcp1pxCheck a) (rcp1px a)))

end Sys2Proof.Machine
end

