-- ==== Sys2Proof/Machine/Dispatch.lean ====
section
/-! DEFINITION. What each instruction does: one arm per constructor, each one call of that instruction's meaning. -/

namespace Sys2Proof.Machine

/-- The meaning of every command (30_encoding.md R43, R50). -/
def exec (i : Instr) (s : State) : Host.Outcome State Fault Refusal :=
  match i with
  | .maskz a => Sys2Proof.Machine.execMaskz a s
  | .masknz a => Sys2Proof.Machine.execMasknz a s
  | .sel mask thenVal elseVal => Sys2Proof.Machine.execSel mask thenVal elseVal s
  | .rdivpot x exponent => Sys2Proof.Machine.execRdivpot x exponent s
  | .srmulpot x exponent => Sys2Proof.Machine.execSrmulpot x exponent s
  | .rhsum a b => Sys2Proof.Machine.execRhsum a b s
  | .fpmul a b => Sys2Proof.Machine.execFpmul a b s
  | .expr a => Sys2Proof.Machine.execExpr a s
  | .expn a k => Sys2Proof.Machine.execExpn a k s
  | .rcp1px a => Sys2Proof.Machine.execRcp1px a s

end Sys2Proof.Machine
end

