-- ==== Sys2Proof/Machine/Step.lean ====
section
/-! DEFINITION. One step: a pending request is taken, decoded and executed (10_state.md R28, 30_encoding.md R50). -/

namespace Sys2Proof.Machine

/-- One step of FXC: the oldest pending request of some requester is removed and its response emitted to that requester
(R28). A word that does not decode is answered `IllegalCommand` (R45). With nothing pending FXC is idle and nothing changes
(log 6). -/
def step (s : State) : Host.Outcome State Fault Refusal :=
  match s.select with
  | none => .next s
  | some (sub, rest) =>
    match decode sub.request with
    | .error _ => .next ((s.accept sub rest).raiseFault .illegalCommand)
    | .ok i => exec i (s.accept sub rest)

/-- The request whose bits are the `nbits` low bits of `w`, issued by requester 0 as the only request pending and due at
once, so that the next step serves it (log 8). -/
def State.withFetchWord (s : State) (nbits w : Nat) : State :=
  { s with pending := [⟨0, Request.ofBits (w % 2 ^ nbits), s.turn⟩] }

end Sys2Proof.Machine
end

