-- ==== Sys2Proof/Machine/Answer.lean ====
section
/-! DEFINITION. The pure function of 30_encoding.md R50, request to response, as far as a requester may read the response
(60_exceptions.md R131): what statements about runs compare the delivered responses with. The machine itself answers
through `exec` and the meanings. -/

namespace Sys2Proof.Machine

/-- The answer of a decoded request: the checks of R50 that follow decoding, then the command's function. -/
def answerInstr : Instr → Answer
  | .maskz a => .ok (maskz a)
  | .masknz a => .ok (masknz a)
  | .sel mask thenVal elseVal => .ok (sel mask thenVal elseVal)
  | .rdivpot x exponent => answerOf (rdivpotCheck exponent) (rdivpot x (immValue exponent).toNat)
  | .srmulpot x exponent => answerOf (srmulpotCheck exponent) (srmulpot x (immValue exponent))
  | .rhsum a b => .ok (rhsum a b)
  | .fpmul a b => .ok (fpmul a b)
  | .expr a => answerOf (exprCheck a) (expr a)
  | .expn a k => answerOf (expnCheck a k) (expn a (immValue k).toNat)
  | .rcp1px a => answerOf (rcp1pxCheck a) (rcp1px a)

/-- The answer of a request (R50): total, and a function of the request alone (00_scope.md R14). -/
def answerRequest (q : Request) : Answer :=
  match decode q with
  | .error _ => .fault .illegalCommand
  | .ok i => answerInstr i

end Sys2Proof.Machine
end

