-- ==== Sys2Proof/Machine/Assembler.lean ====
section
/-! DEFINITION. The notation of 30_encoding.md R52 for writing requests down, the pseudo-instructions of R53, and host
programs: finite sequences of requests in which an operand may be the result of an earlier one (R52, 70_reset_and_hazards.md
R153). Notation has no effect on FXC; what R52 leaves open of it is log 13. -/

namespace Sys2Proof.Machine

/-- The names of R43. -/
inductive Mnemonic where
  | maskz | masknz | sel | rdivpot | srmulpot | rhsum | fpmul | expr | expn | rcp1px
deriving DecidableEq, Repr

/-- The mnemonic, upper case (R43, R52). -/
def Mnemonic.name : Mnemonic → String
  | .maskz => "MASKZ"
  | .masknz => "MASKNZ"
  | .sel => "SEL"
  | .rdivpot => "RDIVPOT"
  | .srmulpot => "SRMULPOT"
  | .rhsum => "RHSUM"
  | .fpmul => "FPMUL"
  | .expr => "EXPR"
  | .expn => "EXPN"
  | .rcp1px => "RCP1PX"

/-- The document's function name, accepted as an alias of the mnemonic (R43, R52). -/
def Mnemonic.functionName : Mnemonic → String
  | .maskz => "mask_if_zero"
  | .masknz => "mask_if_non_zero"
  | .sel => "select_using_mask"
  | .rdivpot => "rounding_divide_by_pot"
  | .srmulpot => "saturating_rounding_mult_by_pot"
  | .rhsum => "rounding_half_sum"
  | .fpmul => "fp_mult"
  | .expr => "exp_restricted"
  | .expn => "exp_negative"
  | .rcp1px => "one_over_one_plus_x"

/-- The ten mnemonics. -/
def Mnemonic.all : List Mnemonic :=
  [.maskz, .masknz, .sel, .rdivpot, .srmulpot, .rhsum, .fpmul, .expr, .expn, .rcp1px]

/-- The mnemonic that some characters spell, by its name or by the document's function name (R52). -/
def Mnemonic.ofChars (cs : List Char) : Option Mnemonic :=
  Mnemonic.all.find? (fun m => m.name.toList == cs || m.functionName.toList == cs)

/-- The opcode a mnemonic stands for (R43). -/
def Mnemonic.opcode : Mnemonic → BitVec 4
  | .maskz => 0#4
  | .masknz => 1#4
  | .sel => 2#4
  | .rdivpot => 3#4
  | .srmulpot => 4#4
  | .rhsum => 5#4
  | .fpmul => 6#4
  | .expr => 7#4
  | .expn => 8#4
  | .rcp1px => 9#4

/-- The format of a mnemonic (R43). -/
def Mnemonic.format : Mnemonic → Format
  | .maskz => .U
  | .masknz => .U
  | .sel => .T
  | .rdivpot => .UI
  | .srmulpot => .UI
  | .rhsum => .B
  | .fpmul => .B
  | .expr => .U
  | .expn => .UI
  | .rcp1px => .U

/-- An operand of a line (R52). -/
inductive AsmOperand where
  /-- a decimal literal -/
  | decimal (n : Int)
  /-- a hexadecimal literal of the 32-bit pattern -/
  | hexadecimal (pattern : Nat)
  /-- the name `INT32_MIN` -/
  | int32Min
  /-- the name `INT32_MAX` -/
  | int32Max
  /-- the host-side name of the result of an earlier command, without its `%` -/
  | temp (name : List Char)
deriving DecidableEq, Repr

/-- A line: a host-side name for its result if it gives one, a mnemonic, operands, and the immediate of format `UI`, a
decimal literal (R52). -/
structure AsmLine where
  dst : Option (List Char)
  mnemonic : Mnemonic
  operands : List AsmOperand
  immediate : Option Int
deriving DecidableEq, Repr

/-- The results a host has named so far, the latest first. -/
abbrev Temps := List (List Char × Word)

/-- The pattern an operand stands for; none for a literal that is no 32-bit pattern and for a name that has no result. -/
def AsmOperand.value (temps : Temps) : AsmOperand → Option Word
  | .decimal n => if -2 ^ 31 ≤ n ∧ n < 2 ^ 31 then some (BitVec.ofInt 32 n) else none
  | .hexadecimal pattern => if pattern < 2 ^ 32 then some (BitVec.ofNat 32 pattern) else none
  | .int32Min => some Sys2Proof.Machine.int32Min
  | .int32Max => some Sys2Proof.Machine.int32Max
  | .temp name => temps.lookup name

/-- The immediate field of a line; it must be one that the six bits can hold (R44). -/
def asmImmediate (n : Int) : Option Imm6 :=
  if -32 ≤ n ∧ n ≤ 31 then some (BitVec.ofInt 6 n) else none

/-- The request a line stands for: the operands its format reads, in order, and the immediate of format `UI`; unread operand
fields are 0 (R52). None if the line is not of its mnemonic's form. -/
def AsmLine.assemble (temps : Temps) (l : AsmLine) : Option Request :=
  match l.mnemonic.format, l.operands, l.immediate with
  | .U, [x], none => do
    let a ← x.value temps
    return ⟨commandWord 0#6 l.mnemonic.opcode, a, 0, 0⟩
  | .B, [x, y], none => do
    let a ← x.value temps
    let b ← y.value temps
    return ⟨commandWord 0#6 l.mnemonic.opcode, a, b, 0⟩
  | .T, [x, y, z], none => do
    let a ← x.value temps
    let b ← y.value temps
    let c ← z.value temps
    return ⟨commandWord 0#6 l.mnemonic.opcode, a, b, c⟩
  | .UI, [x], some n => do
    let a ← x.value temps
    let imm ← asmImmediate n
    return ⟨commandWord imm l.mnemonic.opcode, a, 0, 0⟩
  | _, _, _ => none

/-- The host names the result of a line, if the line asks for it and there is one (R52). DESIGN CHOICE, log 13, where R52
is silent: a name written twice stands for the later command's result, and where that command faults the name stands for
nothing, the earlier result being forgotten. -/
def bindResult (dst : Option (List Char)) (answer : Answer) (temps : Temps) : Temps :=
  match dst, answer with
  | none, _ => temps
  | some name, .ok r => (name, r) :: temps
  | some name, .fault _ => temps.filter (fun t => t.1 != name)

/-- The answers to the lines of a host program, in order (R153); none if a line has no request. -/
def runProgram (temps : Temps) : List AsmLine → Option (List Answer)
  | [] => some []
  | l :: ls => do
    let q ← l.assemble temps
    let answers ← runProgram (bindResult l.dst (answerRequest q) temps) ls
    return answerRequest q :: answers

/-! ### The text of a line -/

/-- The pieces of a line's text. -/
inductive AsmToken where
  | word (cs : List Char)
  | comma
  | equals
deriving DecidableEq, Repr

/-- The word read so far, its characters in reverse order, put before the tokens that follow it. -/
def flushWord (reversed : List Char) (tokens : List AsmToken) : List AsmToken :=
  if reversed = [] then tokens else .word reversed.reverse :: tokens

/-- The tokens of a text: words parted by blanks, commas and the sign `=`. -/
def tokenize (reversed : List Char) : List Char → List AsmToken
  | [] => flushWord reversed []
  | c :: cs =>
    if c = ' ' then flushWord reversed (tokenize [] cs)
    else if c = ',' then flushWord reversed (.comma :: tokenize [] cs)
    else if c = '=' then flushWord reversed (.equals :: tokenize [] cs)
    else tokenize (c :: reversed) cs

/-- The digits of the two kinds of numeral of R52, in the order of their values. -/
def decimalDigits : List Char := "0123456789".toList

/-- The sixteen digits of a hexadecimal literal; lower case letters are read as these (log 13). -/
def hexadecimalDigits : List Char := "0123456789ABCDEF".toList

/-- The number a numeral stands for, continuing from `sofar`: each character is worth its place among the digits, and the
number of digits is the base. None if a character is no digit. -/
def numeralValue (digits : List Char) (sofar : Nat) (numeral : List Char) : Option Nat :=
  numeral.foldlM (fun n c => (digits.findIdx? (· == c.toUpper)).map (fun place => n * digits.length + place)) sofar

/-- A decimal literal (R52). -/
def parseDecimal : List Char → Option Int
  | [] => none
  | '-' :: [] => none
  | '-' :: c :: cs => (numeralValue decimalDigits 0 (c :: cs)).map (fun n => -(n : Int))
  | c :: cs => (numeralValue decimalDigits 0 (c :: cs)).map (fun n => (n : Int))

/-- An operand (R52). -/
def parseOperand (cs : List Char) : Option AsmOperand :=
  if cs = "INT32_MIN".toList then some .int32Min
  else if cs = "INT32_MAX".toList then some .int32Max
  else
    match cs with
    | '%' :: c :: name => some (.temp (c :: name))
    | '0' :: 'x' :: c :: digits => (numeralValue hexadecimalDigits 0 (c :: digits)).map .hexadecimal
    | cs => (parseDecimal cs).map .decimal

/-- Words parted by commas, at least one. -/
def commaList : List AsmToken → Option (List (List Char))
  | [.word cs] => some [cs]
  | .word cs :: .comma :: rest => (commaList rest).map (fun words => cs :: words)
  | _ => none

/-- A mnemonic and its operands; the last one of format `UI` is the immediate, a decimal literal (R52). -/
def parseCommand (dst : Option (List Char)) : List AsmToken → Option AsmLine
  | .word m :: rest => do
    let mnemonic ← Mnemonic.ofChars m
    let words ← commaList rest
    match mnemonic.format with
    | .UI =>
      let operands ← words.dropLast.mapM parseOperand
      let immediate ← (words.getLast?).bind parseDecimal
      return ⟨dst, mnemonic, operands, some immediate⟩
    | _ =>
      let operands ← words.mapM parseOperand
      return ⟨dst, mnemonic, operands, none⟩
  | _ => none

/-- A line's text, `[%dst =] MNEMONIC operand, operand ...` (R52). -/
def parseLine (text : String) : Option AsmLine :=
  match tokenize [] text.toList with
  | .word ('%' :: c :: name) :: .equals :: rest => parseCommand (some (c :: name)) rest
  | tokens => parseCommand none tokens

/-- The pseudo-instructions (R53); `mask` is the host-side name the expansion of `SELZ` and `SELNZ` uses. -/
inductive Pseudo where
  | rescale (dst : Option (List Char)) (x : AsmOperand) (srcK dstK : Int)
  | selz (dst : Option (List Char)) (mask : List Char) (a t e : AsmOperand)
  | selnz (dst : Option (List Char)) (mask : List Char) (a t e : AsmOperand)
  | halve (dst : Option (List Char)) (x : AsmOperand)
deriving DecidableEq, Repr

/-- The commands a pseudo-instruction stands for; `RESCALE` needs `−31 ≤ src_k − dst_k ≤ 31` (R53). -/
def Pseudo.expand : Pseudo → Option (List AsmLine)
  | .rescale dst x srcK dstK =>
    if -31 ≤ srcK - dstK ∧ srcK - dstK ≤ 31 then some [⟨dst, .srmulpot, [x], some (srcK - dstK)⟩] else none
  | .selz dst mask a t e =>
    some [⟨some mask, .maskz, [a], none⟩, ⟨dst, .sel, [.temp mask, t, e], none⟩]
  | .selnz dst mask a t e =>
    some [⟨some mask, .masknz, [a], none⟩, ⟨dst, .sel, [.temp mask, t, e], none⟩]
  | .halve dst x => some [⟨dst, .rdivpot, [x], some 1⟩]

end Sys2Proof.Machine
end

