-- ==== Sys2Proof/Machine/HostLink.lean ====
section
/-! DEFINITION. What the outside world can do to FXC: "exactly two things", issue a request and reset it
(70_reset_and_hazards.md R153); between these events FXC serves requests. A run is a list of events in any order, so every
interleaving of any number of requesters is a run (20_memory.md R35). -/

namespace Sys2Proof.Machine

/-- An event of a run. -/
inductive HostEvent where
  /-- A requester issues a request (R153). -/
  | issue (requester : Nat) (q : Request)
  /-- The reset event (R150). -/
  | reset
  /-- FXC takes one step. -/
  | serve
deriving DecidableEq, Repr

/-- One event. -/
def onEvent (e : HostEvent) (s : State) : Host.Outcome State Fault Refusal :=
  match e with
  | .issue requester q => .next (s.issue requester q)
  | .reset => .next s.resetEvent
  | .serve => step s

/-- A run of events, first to last. -/
def runEvents : List HostEvent → State → Host.Outcome State Fault Refusal
  | [], s => .next s
  | e :: es, s =>
    match onEvent e s with
    | .next t => runEvents es t
    | .fault r => .fault r
    | .refused r => .refused r

end Sys2Proof.Machine
end

