-- ==== Sys2Proof/Safety.lean ====
section
/-! DEFINITION. The notions the statements are written in: what a requester sees of a run, and the commands' results as
plain integer formulas, without bit patterns, wrapping, masks or shifts. -/

namespace Sys2Proof.Machine

/-! ### What a requester sees -/

/-- The pending requests of a requester, oldest first. -/
def pendingOf (requester : Nat) (s : State) : List Request :=
  (s.pending.filter (fun p => p.requester == requester)).map (fun p => p.request)

/-- What a requester has read of the responses delivered to it, oldest first; never `R` of a fault (60_exceptions.md R131). -/
def answersTo (requester : Nat) (s : State) : List Answer :=
  (s.delivered.filter (fun d => d.requester == requester)).map (fun d => d.response.read)

/-- The answers a requester has received followed by the answers its pending requests are owed. -/
def promised (requester : Nat) (s : State) : List Answer :=
  answersTo requester s ++ (pendingOf requester s).map answerRequest

/-- The requests a requester issues in a run of events, first to last. -/
def issuedBy (requester : Nat) : List HostEvent → List Request
  | [] => []
  | .issue r q :: es => if r = requester then q :: issuedBy requester es else issuedBy requester es
  | .reset :: es => issuedBy requester es
  | .serve :: es => issuedBy requester es

/-- No event of a run is a reset. -/
def withoutReset (es : List HostEvent) : Prop := HostEvent.reset ∉ es

/-- A safe run, "no response had `ST ≠ OK`" (R131): every response delivered so far has status `OK`. -/
def State.faultFree (s : State) : Prop := ∀ d ∈ s.delivered, d.response.st = .ok

/-! ### The commands over the integers -/

/-- The integer nearest to `n / d`, ties away from zero, for `d > 0` (00_scope.md R5; 41_pot_scaling.md R70, R72). -/
def roundAway (n d : Int) : Int :=
  if n ≥ 0 then (2 * n + d) / (2 * d) else -((2 * -n + d) / (2 * d))

/-- The integer nearest to `n / d`, ties toward plus infinity, for `d > 0` (42_fp_mult.md R86). -/
def roundUp (n d : Int) : Int := (2 * n + d) / (2 * d)

/-- `sat32(n)` (00_scope.md R7, R11). -/
def sat32 (n : Int) : Int :=
  if n > 2147483647 then 2147483647 else if n < -2147483648 then -2147483648 else n

/-- The `FPMUL` of two integers: the rounded quotient of their product, clamped (R85, R86). -/
def fpmulZ (a b : Int) : Int := sat32 (roundUp (a * b) (2 ^ 31))

/-- `RDIVPOT` (R70). -/
def rdivpotZ (x : Int) (e : Nat) : Int := roundAway x (2 ^ e)

/-- `SRMULPOT`, the closed form of R74. -/
def srmulpotZ (x e : Int) : Int :=
  if e ≥ 0 then sat32 (x * 2 ^ e.toNat) else rdivpotZ x (-e).toNat

/-- `RHSUM` (R76). -/
def rhsumZ (a b : Int) : Int := roundAway (a + b) 2

/-- `EXPR` on its domain, in unbounded integers (43_exp.md R95, R98 (a)). -/
def exprZ (a : Int) : Int :=
  let x := a + 2 ^ 28
  let x2 := roundUp (x * x) (2 ^ 31)
  let x3 := roundUp (x2 * x) (2 ^ 31)
  let x4 := roundUp (x2 * x2) (2 ^ 31)
  let t := roundUp ((roundAway x4 4 + x3) * 715827883) (2 ^ 31) + x2
  1895147668 + roundUp (1895147668 * (x + roundAway t 2)) (2 ^ 31)

/-- The ladder multipliers of the rungs 0 to 6, whose exponents are −2 to 4 (R103). -/
def multipliersZ : List Int := [1672461947, 1302514674, 790015084, 290630308, 39332535, 720401, 242]

/-- The rungs `j`, `j + 1`, ... applied in that order to `r`: rung `j` has exponent `j − 2`, is admitted when `K > j − 2`,
and multiplies when bit `j` of the number `m` of quarters removed is set (R102, R103, R104). -/
def ladderZ (k m : Nat) : Nat → List Int → Int → Int
  | _, [], r => r
  | j, mult :: rest, r =>
    ladderZ k m (j + 1) rest (if j < k + 2 ∧ m / 2 ^ j % 2 = 1 then roundUp (r * mult) (2 ^ 31) else r)

/-- `EXPN` in unbounded integers (R100): `a = am − m * q` with `−q ≤ am ≤ −1`, where `q = 2^(29−K)` is the real 1/4 and `m`
the number of quarters removed. -/
def expnZ (a : Int) (k : Nat) : Int :=
  if a = 0 then 2147483647
  else if k > 5 ∧ a * 2 ^ k < -(2 ^ 36) then 0
  else
    let m := (-a - 1) / 2 ^ (29 - k)
    ladderZ k m.toNat 0 multipliersZ (exprZ ((a + m * 2 ^ (29 - k)) * 2 ^ k))

/-- One Newton iteration in unbounded integers (44_reciprocal.md R115, R118 (a)). -/
def newtonZ (hd x : Int) : Int :=
  x + 4 * roundUp (x * (2 ^ 29 - roundUp (hd * x) (2 ^ 31))) (2 ^ 31)

/-- `RCP1PX` in unbounded integers, only the last doubling saturating (R115, R118 (a)). -/
def rcp1pxZ (a : Int) : Int :=
  let hd := rhsumZ a 2147483647
  let x := 1515870810 + roundUp (hd * -1010580540) (2 ^ 31)
  sat32 (2 * newtonZ hd (newtonZ hd (newtonZ hd x)))

/-- `OP`, by arithmetic on the command word as a number (30_encoding.md R41). -/
def opOf (cw : CommandWord) : Nat := cw.toNat % 16

/-- `IMM`: `CW[9:4]` when `CW[9] = 0`, else `CW[9:4] − 64` (R44). -/
def immOf (cw : CommandWord) : Int :=
  if cw.toNat / 16 % 64 < 32 then (cw.toNat / 16 % 64 : Nat) else (cw.toNat / 16 % 64 : Nat) - 64

/-- `RSV`, bits 15:10 (R41). -/
def rsvOf (cw : CommandWord) : Nat := cw.toNat / 1024

/-- A result given as an integer in the `i32` range. -/
def okZ (n : Int) : Answer := .ok (BitVec.ofInt 32 n)

/-- `exec` of R50, its checks line by line in the order given there, each command's result by its integer formula. -/
def answerZ (q : Request) : Answer :=
  let imm := immOf q.cw
  let a := q.a.toInt
  let b := q.b.toInt
  if rsvOf q.cw ≠ 0 then .fault .illegalCommand
  else if opOf q.cw = 0 then
    if imm ≠ 0 then .fault .illegalCommand else okZ (if a = 0 then -1 else 0)
  else if opOf q.cw = 1 then
    if imm ≠ 0 then .fault .illegalCommand else okZ (if a = 0 then 0 else -1)
  else if opOf q.cw = 2 then
    if imm ≠ 0 then .fault .illegalCommand else .ok ((q.a &&& q.b) ||| (~~~q.a &&& q.c))
  else if opOf q.cw = 3 then
    if imm < 0 then .fault .invalidExponent else okZ (rdivpotZ a imm.toNat)
  else if opOf q.cw = 4 then
    if imm = -32 then .fault .invalidExponent else okZ (srmulpotZ a imm)
  else if opOf q.cw = 5 then
    if imm ≠ 0 then .fault .illegalCommand else okZ (rhsumZ a b)
  else if opOf q.cw = 6 then
    if imm ≠ 0 then .fault .illegalCommand else okZ (fpmulZ a b)
  else if opOf q.cw = 7 then
    if imm ≠ 0 then .fault .illegalCommand
    else if -536870912 ≤ a ∧ a ≤ -1 then okZ (exprZ a) else .fault .outOfDomain
  else if opOf q.cw = 8 then
    if imm < 0 ∨ imm > 29 then .fault .invalidFormat
    else if a > 0 then .fault .outOfDomain else okZ (expnZ a imm.toNat)
  else if opOf q.cw = 9 then
    if imm ≠ 0 then .fault .illegalCommand
    else if a < 0 then .fault .outOfDomain else okZ (rcp1pxZ a)
  else .fault .illegalCommand

/-- `val_k(raw) = raw / 2^(31−k)`, the real number a raw stands for in format `Qk` (00_scope.md R9). -/
def qValue (k : Int) (raw : Word) : Rat := raw.toInt / (2 : Rat) ^ (31 - k)

end Sys2Proof.Machine
end

