-- ==== Sys2Proof/Certificates/Slice0/Obligations.lean ====
section
/-! DEFINITION. The statements for the provers. A state reached by delivering a response is written out field by field, so
that each statement of a command's effect is its frame as well: the rest of the state is as it was. The fields `delivered`,
`serving` and `turn` are the model's own (logs 4 and 5): `delivered` stands for the responses FXC emits, and a clause about
`serving` or `turn` says what the model's bookkeeping does. That a fault is a next state, with its response delivered, is
R131's effect taken as log 1 says. -/

open Sys2Proof Sys2Proof.Machine

/-! ### Encoding and decoding -/

/-- R41, R42, R43, R46: every instruction decodes from its encoding, and a request decodes to `i` exactly when it has the
command word of `i` and agrees with it on the operand fields the format of `i` reads. -/
def Obligations.DecodeInvertsEncode : Prop :=
  (∀ i : Instr, decode (encode i) = .ok i) ∧
  ∀ (q : Request) (i : Instr), decode q = .ok i ↔
    q.cw = (encode i).cw ∧ q.a = (encode i).a ∧
    (i.format.readsB = true → q.b = (encode i).b) ∧ (i.format.readsC = true → q.c = (encode i).c)

/-- The command words of R60, R61, R62, R70, R73, R76, R85, R95, R100, R115 as numbers. -/
def Obligations.EncodedCommandWords : Prop :=
  ∀ (a b c : Word) (imm : Imm6),
    (encode (.maskz a)).cw.toNat = 0x0000 ∧ (encode (.masknz a)).cw.toNat = 0x0001 ∧
    (encode (.sel a b c)).cw.toNat = 0x0002 ∧ (encode (.rdivpot a imm)).cw.toNat = 0x0003 + 16 * imm.toNat ∧
    (encode (.srmulpot a imm)).cw.toNat = 0x0004 + 16 * imm.toNat ∧ (encode (.rhsum a b)).cw.toNat = 0x0005 ∧
    (encode (.fpmul a b)).cw.toNat = 0x0006 ∧ (encode (.expr a)).cw.toNat = 0x0007 ∧
    (encode (.expn a imm)).cw.toNat = 0x0008 + 16 * imm.toNat ∧ (encode (.rcp1px a)).cw.toNat = 0x0009

/-- The words of R52 and of the vectors of 95_test_vectors.md decode to the instructions they stand for. -/
def Obligations.SampleWordsDecode : Prop :=
  decode ⟨0x0033, 1000, 0, 0⟩ = .ok (.rdivpot 1000 3) ∧
  decode ⟨0x03E4, 7, 0, 0⟩ = .ok (.srmulpot 7 (-2)) ∧
  decode ⟨0x0058, 0xFC000000, 0, 0⟩ = .ok (.expn 0xFC000000 5) ∧
  decode ⟨0x0002, 0xFFFF0000, 0x12345678, 0x9ABCDEF0⟩ = .ok (.sel 0xFFFF0000 0x12345678 0x9ABCDEF0) ∧
  decode ⟨0x0006, 1, 2, 3⟩ = .ok (.fpmul 1 2) ∧
  decode ⟨0x0400, 0, 0, 0⟩ = .error .reservedBitSet ∧
  decode ⟨0x000A, 0, 0, 0⟩ = .error .reservedOpcode ∧
  decode ⟨0x0016, 0, 0, 0⟩ = .error .immediateNotZero

/-- R45, first sentence: the three cases, and no other, are answered `IllegalCommand`. -/
def Obligations.IllegalCommandInExactlyThreeCases : Prop :=
  ∀ q : Request, answerRequest q = .fault .illegalCommand ↔
    q.cw.toNat / 1024 ≠ 0 ∨ 10 ≤ q.cw.toNat % 16 ∨
    (q.cw.toNat % 16 ∈ [0, 1, 2, 5, 6, 7, 9] ∧ q.cw.toNat / 16 % 64 ≠ 0)

/-- R50 with R71, R74, R76, R86, R98 (a), R102 to R106, R108 (a) and R118 (a): the answer of every request is the one the
procedure of R50 gives, with each command's result by its closed form over the integers. -/
def Obligations.RequestsAnsweredByTheProcedure : Prop :=
  ∀ q : Request, answerRequest q = answerZ q

/-- R132, the rows below `IllegalCommand`, with the priority of R135: which requests are answered with each fault. -/
def Obligations.FaultsInExactlyTheirConditions : Prop :=
  ∀ q : Request,
    (answerRequest q = .fault .invalidExponent ↔
      rsvOf q.cw = 0 ∧ (opOf q.cw = 3 ∧ immOf q.cw < 0 ∨ opOf q.cw = 4 ∧ immOf q.cw = -32)) ∧
    (answerRequest q = .fault .invalidFormat ↔
      rsvOf q.cw = 0 ∧ opOf q.cw = 8 ∧ (immOf q.cw < 0 ∨ immOf q.cw > 29)) ∧
    (answerRequest q = .fault .outOfDomain ↔
      rsvOf q.cw = 0 ∧
        (opOf q.cw = 7 ∧ immOf q.cw = 0 ∧ (q.a.toInt < -2 ^ 29 ∨ q.a.toInt ≥ 0) ∨
         opOf q.cw = 8 ∧ 0 ≤ immOf q.cw ∧ immOf q.cw ≤ 29 ∧ q.a.toInt > 0 ∨
         opOf q.cw = 9 ∧ immOf q.cw = 0 ∧ q.a.toInt < 0))

/-- R46: the operand fields a command does not read do not change the answer. -/
def Obligations.UnreadOperandsAreIgnored : Prop :=
  ∀ (cw : CommandWord) (a b c b' c' : Word),
    (cw.toNat % 16 ∈ [0, 1, 3, 4, 7, 8, 9] → answerRequest ⟨cw, a, b, c⟩ = answerRequest ⟨cw, a, b', c'⟩) ∧
    (cw.toNat % 16 ∈ [5, 6] → answerRequest ⟨cw, a, b, c⟩ = answerRequest ⟨cw, a, b, c'⟩)

/-! ### The step -/

/-- A request in service that decodes to `i` is executed as `i`: the step removes it from the pending requests, notes whose
it is and counts the turn, and what `exec` of `i` gives at that state is what the step gives. -/
def Obligations.StepRunsTheDecodedInstruction : Prop :=
  ∀ (s : State) (sub : Submission) (rest : List Submission) (i : Instr),
    s.select = some (sub, rest) → decode sub.request = .ok i →
    step s = exec i { s with pending := rest, serving := sub.requester, turn := s.turn + 1 }

/-- R45, R131: a request in service that does not decode is answered `IllegalCommand`, and nothing else happens. -/
def Obligations.StepAnswersAnIllegalWord : Prop :=
  ∀ (s : State) (sub : Submission) (rest : List Submission) (e : DecodeError),
    s.select = some (sub, rest) → decode sub.request = .error e →
    ∃ r : Word, step s = .next
      { pending := rest, delivered := s.delivered ++ [⟨sub.requester, ⟨r, .illegalCommand⟩⟩],
        serving := sub.requester, turn := s.turn + 1 }

/-- R28, R32: a step removes the request it serves and delivers one response to its requester, which reads as the answer of
that request alone. -/
def Obligations.StepDeliversTheAnswer : Prop :=
  ∀ (s : State) (sub : Submission) (rest : List Submission), s.select = some (sub, rest) →
    ∃ p : Response, p.read = answerRequest sub.request ∧
      step s = .next
        { pending := rest, delivered := s.delivered ++ [⟨sub.requester, p⟩],
          serving := sub.requester, turn := s.turn + 1 }

/-- R28, R35: the request served is the oldest of its requester, whichever requester that is; when one requester alone has
requests pending it is the oldest of all; nothing is served only when nothing is pending. -/
def Obligations.OldestOfOneRequesterIsServed : Prop :=
  ∀ s : State,
    (s.pending = [] → s.select = none) ∧
    (s.pending ≠ [] → ∃ sub rest before after, s.select = some (sub, rest) ∧
      s.pending = before ++ sub :: after ∧ rest = before ++ after ∧ ∀ x ∈ before, x.requester ≠ sub.requester) ∧
    (∀ p ps, s.pending = p :: ps → (∀ x ∈ ps, x.requester = p.requester) → s.select = some (p, ps))

/-- The model's choice, log 6: an idle FXC stays as it is. -/
def Obligations.IdleStepChangesNothing : Prop :=
  ∀ s : State, s.pending = [] → step s = .next s

/-- No state makes the machine stop. That a violation is a next state is log 1 (DEDUCED from R131's account of its effect;
R131 also lets a model stop there), and that an idle step answers a next state is the model's choice, log 6. -/
def Obligations.StepAlwaysHasANextState : Prop :=
  ∀ s : State, ∃ t : State, step s = .next t

/-! ### The commands: result and frame -/

/-- R60. -/
def Obligations.MaskzResult : Prop :=
  ∀ (a : Word) (s : State), exec (.maskz a) s = .next
    { s with delivered := s.delivered ++ [⟨s.serving, ⟨if a = 0#32 then 0xFFFFFFFF#32 else 0#32, .ok⟩⟩] }

/-- R61. -/
def Obligations.MasknzResult : Prop :=
  ∀ (a : Word) (s : State), exec (.masknz a) s = .next
    { s with delivered := s.delivered ++ [⟨s.serving, ⟨if a = 0#32 then 0#32 else 0xFFFFFFFF#32, .ok⟩⟩] }

/-- R62: each bit of the result comes from `then_val` where the mask is 1 and from `else_val` where it is 0. -/
def Obligations.SelResult : Prop :=
  ∀ (mask thenVal elseVal : Word) (s : State), ∃ r : Word,
    exec (.sel mask thenVal elseVal) s = .next { s with delivered := s.delivered ++ [⟨s.serving, ⟨r, .ok⟩⟩] } ∧
    ∀ i < 32, r.getLsbD i = if mask.getLsbD i then thenVal.getLsbD i else elseVal.getLsbD i

/-- R70: the closed form, and the range of the result. -/
def Obligations.RdivpotResult : Prop :=
  ∀ (x : Word) (e : Imm6) (s : State), 0 ≤ e.toInt → ∃ r : Word,
    exec (.rdivpot x e) s = .next { s with delivered := s.delivered ++ [⟨s.serving, ⟨r, .ok⟩⟩] } ∧
    r.toInt = rdivpotZ x.toInt e.toNat ∧ |r.toInt| ≤ 2 ^ (31 - e.toNat)

/-- R74: the closed form of `SRMULPOT` for every legal exponent. -/
def Obligations.SrmulpotResult : Prop :=
  ∀ (x : Word) (e : Imm6) (s : State), -31 ≤ e.toInt → ∃ r : Word,
    exec (.srmulpot x e) s = .next { s with delivered := s.delivered ++ [⟨s.serving, ⟨r, .ok⟩⟩] } ∧
    r.toInt = srmulpotZ x.toInt e.toInt

/-- R76: half the exact sum, a half going away from zero. -/
def Obligations.RhsumResult : Prop :=
  ∀ (a b : Word) (s : State), ∃ r : Word,
    exec (.rhsum a b) s = .next { s with delivered := s.delivered ++ [⟨s.serving, ⟨r, .ok⟩⟩] } ∧
    r.toInt = rhsumZ a.toInt b.toInt

/-- R86, and the one saturating pair of R85. -/
def Obligations.FpmulResult : Prop :=
  ∀ (a b : Word) (s : State), ∃ r : Word,
    exec (.fpmul a b) s = .next { s with delivered := s.delivered ++ [⟨s.serving, ⟨r, .ok⟩⟩] } ∧
    r.toInt = if a.toInt = -2 ^ 31 ∧ b.toInt = -2 ^ 31 then 2 ^ 31 - 1
      else (a.toInt * b.toInt + 2 ^ 30) / 2 ^ 31

/-- R95, R98 (a): on its domain `EXPR` computes its polynomial as over unbounded integers. -/
def Obligations.ExprResult : Prop :=
  ∀ (a : Word) (s : State), -2 ^ 29 ≤ a.toInt → a.toInt ≤ -1 → ∃ r : Word,
    exec (.expr a) s = .next { s with delivered := s.delivered ++ [⟨s.serving, ⟨r, .ok⟩⟩] } ∧
    r.toInt = exprZ a.toInt

/-- R100, R108 (a): in contract `EXPN` computes as over unbounded integers, quarter by quarter. -/
def Obligations.ExpnResult : Prop :=
  ∀ (a : Word) (k : Imm6) (s : State), 0 ≤ k.toInt → k.toInt ≤ 29 → a.toInt ≤ 0 → ∃ r : Word,
    exec (.expn a k) s = .next { s with delivered := s.delivered ++ [⟨s.serving, ⟨r, .ok⟩⟩] } ∧
    r.toInt = expnZ a.toInt k.toNat

/-- R115, R118 (a): on its domain `RCP1PX` computes as over unbounded integers, only the last doubling saturating. -/
def Obligations.Rcp1pxResult : Prop :=
  ∀ (a : Word) (s : State), 0 ≤ a.toInt → ∃ r : Word,
    exec (.rcp1px a) s = .next { s with delivered := s.delivered ++ [⟨s.serving, ⟨r, .ok⟩⟩] } ∧
    r.toInt = rcp1pxZ a.toInt

/-- R131, R132: a decoded command outside its contract is answered with its fault and nothing else happens, whatever `R`
is: the exponents of `RDIVPOT` and `SRMULPOT`, the format of `EXPN`, the operands of `EXPR`, `EXPN` and `RCP1PX`. -/
def Obligations.ContractViolationsAreAnswered : Prop :=
  ∀ (a : Word) (imm : Imm6) (s : State),
    (imm.toInt < 0 → ∃ r : Word, exec (.rdivpot a imm) s = .next
      { s with delivered := s.delivered ++ [⟨s.serving, ⟨r, .invalidExponent⟩⟩] }) ∧
    (imm.toInt = -32 → ∃ r : Word, exec (.srmulpot a imm) s = .next
      { s with delivered := s.delivered ++ [⟨s.serving, ⟨r, .invalidExponent⟩⟩] }) ∧
    (imm.toInt < 0 ∨ imm.toInt > 29 → ∃ r : Word, exec (.expn a imm) s = .next
      { s with delivered := s.delivered ++ [⟨s.serving, ⟨r, .invalidFormat⟩⟩] }) ∧
    (0 ≤ imm.toInt → imm.toInt ≤ 29 → a.toInt > 0 → ∃ r : Word, exec (.expn a imm) s = .next
      { s with delivered := s.delivered ++ [⟨s.serving, ⟨r, .outOfDomain⟩⟩] }) ∧
    (a.toInt < -2 ^ 29 ∨ a.toInt ≥ 0 → ∃ r : Word, exec (.expr a) s = .next
      { s with delivered := s.delivered ++ [⟨s.serving, ⟨r, .outOfDomain⟩⟩] }) ∧
    (a.toInt < 0 → ∃ r : Word, exec (.rcp1px a) s = .next
      { s with delivered := s.delivered ++ [⟨s.serving, ⟨r, .outOfDomain⟩⟩] })

/-! ### Laws of the bit-select commands and of the roundings -/

/-- R63: the laws of the three bit-select commands. -/
def Obligations.BitSelectLaws : Prop :=
  ∀ a t e : Word,
    maskz a = ~~~masknz a ∧ maskz 0#32 = -1#32 ∧ (a ≠ 0#32 → maskz a = 0#32) ∧
    sel (-1#32) t e = t ∧ sel 0#32 t e = e ∧
    sel (maskz a) t e = (if a = 0#32 then t else e) ∧ sel (masknz a) t e = (if a ≠ 0#32 then t else e)

/-- R72: a tie goes to the neighbour farther from zero for either sign, and `RDIVPOT` is odd. -/
def Obligations.RdivpotTiesGoAwayFromZero : Prop :=
  (∀ (x : Word) (e : Nat) (j : Int), 1 ≤ e → e ≤ 31 → x.toInt = (2 * j + 1) * 2 ^ (e - 1) →
    (rdivpot x e).toInt = if x.toInt > 0 then j + 1 else j) ∧
  (∀ (x : Word) (e : Nat), e ≤ 31 → x.toInt ≠ -2 ^ 31 →
    (rdivpot (neg32 x) e).toInt = -(rdivpot x e).toInt)

/-- R77: the same half rounded by `RDIVPOT`, `RHSUM` and `FPMUL`. -/
def Obligations.RoundingsDiffer : Prop :=
  rdivpot (-1#32) 1 = -1#32 ∧ rhsum (-1#32) 0#32 = -1#32 ∧ fpmul (-1#32) 0x40000000#32 = 0#32

/-- R88 (a) and (b): `FPMUL` commutes; negating an operand negates the result but for a tie, where they differ by one. -/
def Obligations.FpmulCommutesAndIsNotOdd : Prop :=
  ∀ a b : Word, fpmul a b = fpmul b a ∧
    (a.toInt ≠ -2 ^ 31 → (fpmul (neg32 a) b).toInt =
      if a.toInt * b.toInt % 2 ^ 31 = 2 ^ 30 then -(fpmul a b).toInt + 1 else -(fpmul a b).toInt)

/-- R88 (c): the error of `FPMUL` is at most half a unit, and one unit for the saturated pair. -/
def Obligations.FpmulErrorAtMostHalf : Prop :=
  ∀ a b : Word,
    (¬(a.toInt = -2 ^ 31 ∧ b.toInt = -2 ^ 31) → 2 * |(fpmul a b).toInt * 2 ^ 31 - a.toInt * b.toInt| ≤ 2 ^ 31) ∧
    (a.toInt = -2 ^ 31 → b.toInt = -2 ^ 31 → |(fpmul a b).toInt * 2 ^ 31 - a.toInt * b.toInt| = 2 ^ 31)

/-- R88 (d): multiplication by `Q0_ONE`. -/
def Obligations.FpmulByUnit : Prop :=
  ∀ x : Word, (fpmul int32Max x).toInt =
    if x.toInt > 2 ^ 30 then x.toInt - 1 else if x.toInt > -2 ^ 30 then x.toInt else x.toInt + 1

/-- R88 (e): `FPMUL` is associative to within one unit. -/
def Obligations.FpmulBoundedNonAssociativity : Prop :=
  ∀ a b c : Word, |(fpmul (fpmul a b) c).toInt - (fpmul a (fpmul b c)).toInt| ≤ 1

/-- R88 (f): `FPMUL` is monotone when the other operand is not negative. -/
def Obligations.FpmulMonotone : Prop :=
  ∀ a a' b : Word, 0 ≤ b.toInt → a.toInt ≤ a'.toInt → (fpmul a b).toInt ≤ (fpmul a' b).toInt

/-- R10, R89: the product of a `Qj` and a `Qk` value is the `Q(j+k)` value of `FPMUL`, to half a unit of that format. -/
def Obligations.FpmulComposesFormats : Prop :=
  ∀ (x y : Word) (j k : Int), ¬(x.toInt = -2 ^ 31 ∧ y.toInt = -2 ^ 31) →
    |qValue (j + k) (fpmul x y) - qValue j x * qValue k y| ≤ (1 / 2 : Rat) * (2 : Rat) ^ (j + k - 31)

/-! ### Layer 3 -/

/-- R13, program P1: `EXPR` is what a host obtains from `FPMUL` and `SRMULPOT` requests and its own 32-bit additions. -/
def Obligations.ExprIsItsPrimitiveRequests : Prop :=
  ∀ a : Word, ∃ x2 x3 x4 x4q m p z : Word,
    let x := add32 a (BitVec.ofInt 32 (2 ^ 28))
    answerRequest ⟨0x0006, x, x, 0⟩ = .ok x2 ∧ answerRequest ⟨0x0006, x2, x, 0⟩ = .ok x3 ∧
    answerRequest ⟨0x0006, x2, x2, 0⟩ = .ok x4 ∧ answerRequest ⟨0x03E4, x4, 0, 0⟩ = .ok x4q ∧
    answerRequest ⟨0x0006, add32 x4q x3, BitVec.ofInt 32 715827883, 0⟩ = .ok m ∧
    answerRequest ⟨0x03F4, add32 m x2, 0, 0⟩ = .ok p ∧
    answerRequest ⟨0x0006, BitVec.ofInt 32 1895147668, add32 x p, 0⟩ = .ok z ∧
    expr a = add32 (BitVec.ofInt 32 1895147668) z

/-- R98 (c): `EXPR` is monotone on its domain. -/
def Obligations.ExprMonotone : Prop :=
  ∀ a a' : Word, -2 ^ 29 ≤ a.toInt → a.toInt ≤ a'.toInt → a'.toInt ≤ -1 → (expr a).toInt ≤ (expr a').toInt

/-- R98 (b): the range of `EXPR`, and both ends are reached. -/
def Obligations.ExprRange : Prop :=
  (∀ a : Word, -2 ^ 29 ≤ a.toInt → a.toInt ≤ -1 → 1672462419 ≤ (expr a).toInt ∧ (expr a).toInt ≤ 2147483155) ∧
  (expr (BitVec.ofInt 32 (-2 ^ 29))).toInt = 1672462419 ∧ (expr (BitVec.ofInt 32 (-1))).toInt = 2147483155

/-- From R98 (d), with a wider bound: `EXPR` is within 600 units of the exponential. -/
def Obligations.ExprNearExponential : Prop :=
  ∀ a : Word, -2 ^ 29 ≤ a.toInt → a.toInt ≤ -1 →
    |((expr a).toInt : ℝ) - 2 ^ 31 * Real.exp ((a.toInt : ℝ) / 2 ^ 31)| ≤ 600

/-- R103, R15, R115: each hard-wired constant is the correctly rounded real number it stands for. -/
def Obligations.ConstantsAreCorrectlyRounded : Prop :=
  (∀ rung ∈ ladder, |(rung.2.toInt : ℝ) - 2 ^ 31 * Real.exp (-(2 : ℝ) ^ rung.1)| ≤ 1 / 2) ∧
  |(expC.toInt : ℝ) - 2 ^ 31 * Real.exp (-1 / 8)| ≤ 1 / 2 ∧
  |(oneThird.toInt : ℝ) - 2 ^ 31 / 3| ≤ 1 / 2 ∧
  |(c48Over17.toInt : ℝ) - 48 / 17 * 2 ^ 29| ≤ 1 / 2 ∧ |(cNeg32Over17.toInt : ℝ) - -32 / 17 * 2 ^ 29| ≤ 1 / 2

/-- R102: the reduced argument lies in the real interval `[−1/4, 0)`, its conversion to `Q0` is exact and in the domain of
`EXPR`, and what was removed is a multiple of the real 1/4. -/
def Obligations.ExpnReductionStaysInDomain : Prop :=
  ∀ (a : Word) (k : Nat), k ≤ 29 → a.toInt ≤ 0 →
    let am := expnReduced a k
    let a0 := srmulpot am k
    am.toInt ≥ -2 ^ (29 - k) ∧ am.toInt ≤ -1 ∧ a0.toInt = am.toInt * 2 ^ k ∧
    -2 ^ 29 ≤ a0.toInt ∧ a0.toInt ≤ -2 ^ k ∧ exprCheck a0 = none ∧
    ∃ n : Int, (sub32 am a).toInt = am.toInt - a.toInt ∧ am.toInt - a.toInt = (n - 1) * 2 ^ (29 - k)

/-- R105: below the real −32 the result is 0, in the formats that hold such values. -/
def Obligations.ExpnClampsToZero : Prop :=
  ∀ (a : Word) (k : Nat), 6 ≤ k → k ≤ 29 → a.toInt < -2 ^ (36 - k) → expn a k = 0#32

/-- R106: the zero input gives `INT32_MAX` in every format. -/
def Obligations.ExpnOfZero : Prop :=
  ∀ k : Nat, k ≤ 29 → expn 0#32 k = int32Max

/-- R108 (b): the range of `EXPN`. -/
def Obligations.ExpnIsNeverNegative : Prop :=
  ∀ (a : Word) (k : Nat), k ≤ 29 → a.toInt ≤ 0 → 0 ≤ (expn a k).toInt

/-- R108 (c): `EXPN` is monotone in each format. -/
def Obligations.ExpnMonotone : Prop :=
  ∀ (a a' : Word) (k : Nat), k ≤ 29 → a.toInt ≤ a'.toInt → a'.toInt ≤ 0 → (expn a k).toInt ≤ (expn a' k).toInt

/-- From R118 (c), with a wider bound: `RCP1PX` is within 8 units of the reciprocal. -/
def Obligations.Rcp1pxNearReciprocal : Prop :=
  ∀ a : Word, 0 ≤ a.toInt → |(rcp1px a).toInt * (2 ^ 31 + a.toInt) - 2 ^ 62| ≤ 8 * (2 ^ 31 + a.toInt)

/-- R115, R118 (a): the result is `INT32_MAX` for the operands 0, 1, 2, 3 and no other. -/
def Obligations.Rcp1pxSaturatesForFourOperands : Prop :=
  ∀ a : Word, 0 ≤ a.toInt → (rcp1px a = int32Max ↔ a.toInt ≤ 3)

/-- R118 (d): `RCP1PX` is not decreasing everywhere. -/
def Obligations.Rcp1pxIsNotMonotone : Prop :=
  ∃ a a' : Word, 0 ≤ a.toInt ∧ a'.toInt = a.toInt + 1 ∧ (rcp1px a).toInt < (rcp1px a').toInt

/-- Program P2: the result of an `EXPN` in contract is always in the domain of `RCP1PX`. -/
def Obligations.ExpnThenRcp1pxNeverFaults : Prop :=
  ∀ (a : Word) (k : Imm6), 0 ≤ k.toInt → k.toInt ≤ 29 → a.toInt ≤ 0 →
    ∃ r r' : Word, answerRequest (encode (.expn a k)) = .ok r ∧ answerRequest (encode (.rcp1px r)) = .ok r'

/-! ### Ordering, faults, reset and termination -/

/-- R35: what a requester has been answered, followed by what its pending requests are owed, is not changed by a step. -/
def Obligations.StepKeepsThePromise : Prop :=
  ∀ (requester : Nat) (owed : List Answer) (s t : State),
    promised requester s = owed → step s = .next t → promised requester t = owed

/-- R150: right after reset nothing is pending and nothing is owed; that the record of responses is empty then is the
model's choice, log 4. -/
def Obligations.NothingPendingAtReset : Prop :=
  State.reset.pending = [] ∧ ∀ requester : Nat, promised requester State.reset = []

/-- R35: in a run of any interleaving of requesters, each requester is answered in the order of its requests, one answer per
request, each that of the request alone; across resets some are left out and still none is added or reordered. -/
def Obligations.RequestersAnsweredInOrder : Prop :=
  ∀ (es : List HostEvent) (s : State), ∃ t : State, runEvents es s = .next t ∧
    ∀ requester : Nat,
      (withoutReset es →
        promised requester t = promised requester s ++ (issuedBy requester es).map answerRequest) ∧
      (answersTo requester t).Sublist (promised requester s ++ (issuedBy requester es).map answerRequest)

/-- From R28 and R156: with nothing issued meanwhile, as many steps as requests are pending answer them all; and whatever
is issued meanwhile, unless a reset intervenes, every pending request is answered once there have been as many steps as
turns until the last of them is overdue, and one more for each of them. That a command is one step is log 9; that a request
has a turn from which it is overdue, some number that nothing bounds, is log 3. -/
def Obligations.EveryPendingRequestIsAnswered : Prop :=
  (∀ s : State, ∃ t : State, Host.Core.run Sys2Proof.core s.pending.length s = .next t ∧
    t.pending = [] ∧ ∀ requester : Nat, answersTo requester t = promised requester s) ∧
  ∀ (s : State) (last : Nat) (es : List HostEvent), (∀ p ∈ s.pending, p.due ≤ last) → withoutReset es →
    last - s.turn + s.pending.length ≤ es.count .serve →
    ∃ t : State, runEvents es s = .next t ∧
      ∀ requester : Nat, ∃ later : List Answer, answersTo requester t = promised requester s ++ later

/-- R131, R137, program P4: a fault changes nothing but its own response, and the next request is answered as ever. -/
def Obligations.FaultsDoNotStick : Prop :=
  ∀ (s : State) (r r' : Nat) (q q' : Request) (v : Violation), s.pending = [] → answerRequest q = .fault v →
    ∃ (w : Word) (p : Response), p.read = answerRequest q' ∧
      runEvents [.issue r q, .serve, .issue r' q', .serve] s = .next
        { pending := [], delivered := s.delivered ++ [⟨r, ⟨w, v.status⟩⟩, ⟨r', p⟩],
          serving := r', turn := s.turn + 2 }

/-- From R150 and R152: a reset discards the pending requests and nothing else, and the first request after it is answered
as any other. That the record of responses and the model's own numbers outlive a reset is the model's choice, logs 4
and 5. -/
def Obligations.ResetDiscardsPendingOnly : Prop :=
  ∀ (s : State) (r : Nat) (q : Request),
    onEvent .reset s = .next { s with pending := [] } ∧
    ∃ (t : State) (p : Response), runEvents [.reset, .issue r q, .serve] s = .next t ∧ t.pending = [] ∧
      t.delivered = s.delivered ++ [⟨r, p⟩] ∧ p.read = answerRequest q

/-- R14, R158: two states that serve the same request deliver responses that read the same, whatever else differs. -/
def Obligations.SameRequestSameAnswer : Prop :=
  ∀ (s s' t t' : State) (sub sub' : Submission) (rest rest' : List Submission),
    s.select = some (sub, rest) → s'.select = some (sub', rest') → sub.request = sub'.request →
    step s = .next t → step s' = .next t' →
    ∃ d d' : Delivery, t.delivered = s.delivered ++ [d] ∧ t'.delivered = s'.delivered ++ [d'] ∧
      d.response.read = d'.response.read

/-- Log 4: the record of the responses delivered is only added to, and no step depends on it. -/
def Obligations.DeliveredRecordIsNotRead : Prop :=
  ∀ (s t : State) (other : List Delivery), step s = .next t →
    ∃ new : List Delivery, t.delivered = s.delivered ++ new ∧
      step { s with delivered := other } = .next { t with delivered := other ++ new }

/-- R131: when every pending request is in contract, a run with no fault response stays one. -/
def Obligations.FaultFreeRunStaysFaultFree : Prop :=
  ∀ s t : State, s.faultFree → (∀ p ∈ s.pending, ∃ r, answerRequest p.request = .ok r) → step s = .next t →
    t.faultFree ∧ ∀ p ∈ t.pending, ∃ r, answerRequest p.request = .ok r

/-! ### Notation -/

/-- R52: the four examples, from their text to their command words and operands. -/
def Obligations.AssemblerExamples : Prop :=
  (parseLine "%t0 = RDIVPOT 1000, 3").bind (AsmLine.assemble []) = some ⟨0x0033, 1000, 0, 0⟩ ∧
  (∀ x : Word, (parseLine "%t1 = SRMULPOT %t0, -2").bind (AsmLine.assemble [(['t', '0'], x)]) =
    some ⟨0x03E4, x, 0, 0⟩) ∧
  (parseLine "%t2 = EXPN -67108864, 5").bind (AsmLine.assemble []) = some ⟨0x0058, 0xFC000000, 0, 0⟩ ∧
  (parseLine "%t3 = SEL 0xFFFF0000, 0x12345678, 0x9ABCDEF0").bind (AsmLine.assemble []) =
    some ⟨0x0002, 0xFFFF0000, 0x12345678, 0x9ABCDEF0⟩

/-- R53: `SELZ` gives `t` if `a` is zero, else `e`; `SELNZ` the other way round. -/
def Obligations.SelzAndSelnzSelect : Prop :=
  ∀ (temps : Temps) (dst : Option (List Char)) (mask : List Char) (a t e : AsmOperand) (va vt ve : Word),
    a.value temps = some va → t.value temps = some vt → e.value temps = some ve →
    t ≠ .temp mask → e ≠ .temp mask →
    (∃ lines m, (Pseudo.selz dst mask a t e).expand = some lines ∧
      runProgram temps lines = some [.ok m, .ok (if va = 0#32 then vt else ve)]) ∧
    (∃ lines m, (Pseudo.selnz dst mask a t e).expand = some lines ∧
      runProgram temps lines = some [.ok m, .ok (if va ≠ 0#32 then vt else ve)])

/-- R53: `RESCALE` gives the raw of the target format nearest to the value, saturated; where it does not saturate the value
moves by at most half a unit of the target format. -/
def Obligations.RescaleConvertsFormats : Prop :=
  ∀ (temps : Temps) (dst : Option (List Char)) (x : AsmOperand) (v : Word) (srcK dstK : Int),
    x.value temps = some v → -31 ≤ srcK - dstK → srcK - dstK ≤ 31 →
    ∃ lines r, (Pseudo.rescale dst x srcK dstK).expand = some lines ∧ runProgram temps lines = some [.ok r] ∧
      r.toInt = srmulpotZ v.toInt (srcK - dstK) ∧
      (-2 ^ 31 < r.toInt → r.toInt < 2 ^ 31 - 1 →
        |qValue dstK r - qValue srcK v| ≤ (1 / 2 : Rat) * (2 : Rat) ^ (dstK - 31))

/-- R53: `HALVE` gives half the value, a half going away from zero. -/
def Obligations.HalveRoundsAwayFromZero : Prop :=
  ∀ (temps : Temps) (dst : Option (List Char)) (x : AsmOperand) (v : Word), x.value temps = some v →
    ∃ lines r, (Pseudo.halve dst x).expand = some lines ∧ runProgram temps lines = some [.ok r] ∧
      r.toInt = roundAway v.toInt 2
end

