-- ==== Sys2Proof/Laws/Arith.lean ====
section
/-! SUPPORT. The integer primitives: what a narrowed value reads as when it fits, and the truncating division. -/

namespace Sys2Proof.Machine

@[simp] theorem int32Min_toInt : int32Min.toInt = -2147483648 := by decide
@[simp] theorem int32Max_toInt : int32Max.toInt = 2147483647 := by decide

/-- Every word reads as an `i32`. -/
theorem toInt_bounds (x : Word) : -2147483648 ≤ x.toInt ∧ x.toInt ≤ 2147483647 := by
  have h1 := BitVec.le_toInt x
  have h2 := BitVec.toInt_lt (x := x)
  norm_num at h1 h2
  omega

/-- A value in the `i32` range survives narrowing. -/
theorem wrap32_toInt {n : Int} (h1 : -2147483648 ≤ n) (h2 : n ≤ 2147483647) : (wrap32 n).toInt = n := by
  unfold wrap32
  rw [BitVec.toInt_ofInt, Int.bmod_eq_of_le] <;> norm_num <;> omega

/-- Narrowing what a word reads as gives the word back. -/
@[simp] theorem wrap32_toInt_self (x : Word) : wrap32 x.toInt = x := BitVec.ofInt_toInt

/-- Words that read as the same integer are equal. -/
theorem word_eq_of_toInt {x y : Word} (h : x.toInt = y.toInt) : x = y := BitVec.eq_of_toInt_eq h

theorem add32_toInt {a b : Word} (h1 : -2147483648 ≤ a.toInt + b.toInt) (h2 : a.toInt + b.toInt ≤ 2147483647) :
    (add32 a b).toInt = a.toInt + b.toInt := wrap32_toInt h1 h2

theorem sub32_toInt {a b : Word} (h1 : -2147483648 ≤ a.toInt - b.toInt) (h2 : a.toInt - b.toInt ≤ 2147483647) :
    (sub32 a b).toInt = a.toInt - b.toInt := wrap32_toInt h1 h2

/-- The spec's truncating division is the library's. -/
theorem tdiv_eq (n d : Int) : tdiv n d = n.tdiv d := by
  unfold tdiv
  split
  · next h => rw [Int.tdiv_eq_ediv_of_nonneg h]
  · next h =>
    rw [← Int.tdiv_eq_ediv_of_nonneg (by omega), Int.neg_tdiv, Int.neg_neg]

end Sys2Proof.Machine
end

