-- ==== Sys2Proof/Laws/Assembler.lean ====
section
/-! SUPPORT. What naming a result does to the names of a host program (30_encoding.md R52, log 13). -/

namespace Sys2Proof.Machine

@[simp] theorem bindResult_none (answer : Answer) (temps : Temps) : bindResult none answer temps = temps := by
  cases answer <;> rfl

/-- A name just given stands for the result. -/
@[simp] theorem bindResult_ok_lookup_self (name : List Char) (r : Word) (temps : Temps) :
    (bindResult (some name) (.ok r) temps).lookup name = some r := by
  simp [bindResult]

/-- A name just written by a command that faulted stands for nothing. -/
@[simp] theorem bindResult_fault_lookup_self (name : List Char) (v : Violation) (temps : Temps) :
    (bindResult (some name) (.fault v) temps).lookup name = none := by
  simp only [bindResult]
  induction temps with
  | nil => rfl
  | cons t ts ih =>
    by_cases h : t.1 = name
    · simp [h, ih]
    · simp [h, List.lookup, beq_false_of_ne (Ne.symm h), ih]

/-- Every other name keeps what it stands for. -/
theorem bindResult_lookup_ne {name other : List Char} (h : other ≠ name) (answer : Answer) (temps : Temps) :
    (bindResult (some name) answer temps).lookup other = temps.lookup other := by
  cases answer with
  | ok r => simp [bindResult, List.lookup, beq_false_of_ne h]
  | fault v =>
    simp only [bindResult]
    induction temps with
    | nil => rfl
    | cons t ts ih =>
      by_cases hn : t.1 = name
      · simp [hn, List.lookup, beq_false_of_ne h, ih]
      · by_cases ho : other = t.1
        · simp [← ho, h, List.lookup]
        · simp [hn, List.lookup, beq_false_of_ne ho, ih]

end Sys2Proof.Machine
end

