-- ==== Sys2Proof/Laws/State.lean ====
section
/-! SUPPORT. One lemma per field of the state for each operation on it, so that no proof unfolds a record update. -/

namespace Sys2Proof.Machine

variable (requester : Nat) (q : Request) (sub : Submission) (rest : List Submission) (p : Response) (w : Word)
  (v : Violation) (a : Answer) (s : State)

@[simp] theorem State.issue_pending : (s.issue requester q).pending =
    s.pending ++ [⟨requester, q, s.turn + Config.patience s.turn⟩] := rfl
@[simp] theorem State.issue_delivered : (s.issue requester q).delivered = s.delivered := rfl
@[simp] theorem State.issue_serving : (s.issue requester q).serving = s.serving := rfl
@[simp] theorem State.issue_turn : (s.issue requester q).turn = s.turn := rfl

@[simp] theorem State.resetEvent_pending : s.resetEvent.pending = [] := rfl
@[simp] theorem State.resetEvent_delivered : s.resetEvent.delivered = s.delivered := rfl
@[simp] theorem State.resetEvent_serving : s.resetEvent.serving = s.serving := rfl
@[simp] theorem State.resetEvent_turn : s.resetEvent.turn = s.turn := rfl

@[simp] theorem State.accept_pending : (s.accept sub rest).pending = rest := rfl
@[simp] theorem State.accept_delivered : (s.accept sub rest).delivered = s.delivered := rfl
@[simp] theorem State.accept_serving : (s.accept sub rest).serving = sub.requester := rfl
@[simp] theorem State.accept_turn : (s.accept sub rest).turn = s.turn + 1 := rfl

@[simp] theorem State.deliver_pending : (s.deliver p).pending = s.pending := rfl
@[simp] theorem State.deliver_delivered : (s.deliver p).delivered = s.delivered ++ [⟨s.serving, p⟩] := rfl
@[simp] theorem State.deliver_serving : (s.deliver p).serving = s.serving := rfl
@[simp] theorem State.deliver_turn : (s.deliver p).turn = s.turn := rfl

@[simp] theorem State.returnResult_pending : (s.returnResult w).pending = s.pending := rfl
@[simp] theorem State.returnResult_delivered :
    (s.returnResult w).delivered = s.delivered ++ [⟨s.serving, ⟨w, .ok⟩⟩] := rfl
@[simp] theorem State.returnResult_serving : (s.returnResult w).serving = s.serving := rfl
@[simp] theorem State.returnResult_turn : (s.returnResult w).turn = s.turn := rfl

@[simp] theorem State.raiseFault_pending : (s.raiseFault v).pending = s.pending := rfl
@[simp] theorem State.raiseFault_delivered :
    (s.raiseFault v).delivered = s.delivered ++ [⟨s.serving, ⟨Config.unspecifiedResult s.turn, v.status⟩⟩] := rfl
@[simp] theorem State.raiseFault_serving : (s.raiseFault v).serving = s.serving := rfl
@[simp] theorem State.raiseFault_turn : (s.raiseFault v).turn = s.turn := rfl

@[simp] theorem State.respond_ok : s.respond (.ok w) = s.returnResult w := rfl
@[simp] theorem State.respond_fault : s.respond (.fault v) = s.raiseFault v := rfl

@[simp] theorem State.respond_pending : (s.respond a).pending = s.pending := by cases a <;> rfl
@[simp] theorem State.respond_serving : (s.respond a).serving = s.serving := by cases a <;> rfl
@[simp] theorem State.respond_turn : (s.respond a).turn = s.turn := by cases a <;> rfl

@[simp] theorem State.reset_pending : State.reset.pending = [] := rfl
@[simp] theorem State.reset_delivered : State.reset.delivered = [] := rfl

end Sys2Proof.Machine
end

