-- ==== Sys2Proof/Laws/Ops.lean ====
section
/-! SUPPORT. What each shared operation can do, said once. -/

namespace Sys2Proof.Machine

/-- Reading the response of a fault gives the violation, whatever `R` is. -/
@[simp] theorem Response.read_status (r : Word) (v : Violation) : (Response.mk r v.status).read = .fault v := by
  cases v <;> rfl

/-- Reading a response with status `OK` gives its result. -/
@[simp] theorem Response.read_ok (r : Word) : (Response.mk r .ok).read = .ok r := rfl

/-- All that ending a command does: one response, which reads as the answer, is added to the record for the requester in
service. -/
theorem State.respond_eq (a : Answer) (s : State) :
    ∃ p : Response, p.read = a ∧ s.respond a = { s with delivered := s.delivered ++ [⟨s.serving, p⟩] } := by
  cases a with
  | ok w => exact ⟨⟨w, .ok⟩, rfl, rfl⟩
  | fault v => exact ⟨⟨Config.unspecifiedResult s.turn, v.status⟩, Response.read_status _ v, rfl⟩

@[simp] theorem answerOf_none (r : Word) : answerOf none r = .ok r := rfl
@[simp] theorem answerOf_some (v : Violation) (r : Word) : answerOf (some v) r = .fault v := rfl

/-- All that taking a requester's oldest request can do. -/
theorem takeOldest_eq_some {r : Nat} {l rest : List Submission} {p : Submission}
    (h : takeOldest r l = some (p, rest)) :
    p.requester = r ∧ ∃ before after, l = before ++ p :: after ∧ rest = before ++ after ∧
      ∀ x ∈ before, x.requester ≠ r := by
  induction l generalizing rest with
  | nil => simp [takeOldest] at h
  | cons x xs ih =>
    simp only [takeOldest] at h
    split at h
    · next hx =>
      obtain ⟨rfl, rfl⟩ := by simpa using h
      exact ⟨hx, [], xs, rfl, rfl, by simp⟩
    · next hx =>
      split at h
      · next q rest' hq =>
        obtain ⟨rfl, rfl⟩ := by simpa using h
        obtain ⟨hr, before, after, rfl, rfl, hb⟩ := ih hq
        exact ⟨hr, x :: before, after, rfl, rfl, by simpa [hx] using hb⟩
      · cases h

/-- A requester with a request pending has an oldest one. -/
theorem takeOldest_isSome {r : Nat} {l : List Submission} (h : ∃ x ∈ l, x.requester = r) :
    (takeOldest r l).isSome := by
  induction l with
  | nil => simp at h
  | cons x xs ih =>
    simp only [takeOldest]
    split
    · rfl
    · next hx =>
      have h' : ∃ y ∈ xs, y.requester = r := by simpa [hx] using h
      obtain ⟨⟨q, rest⟩, hq⟩ := Option.isSome_iff_exists.mp (ih h')
      simp [hq]

/-- The requester chosen has a request pending. -/
theorem chooseRequester_mem (turn : Nat) (p : Submission) (ps : List Submission) :
    ∃ x ∈ p :: ps, x.requester = chooseRequester turn p ps := by
  unfold chooseRequester
  split
  · exact ⟨p, by simp, rfl⟩
  · split
    · next q hq => exact ⟨q, List.mem_of_find?_eq_some hq, rfl⟩
    · refine ⟨_, ?_, rfl⟩
      rw [List.getD_eq_getElem _ _ (Nat.mod_lt _ (by simp))]
      exact List.getElem_mem _

@[simp] theorem Submission.overdue_iff (turn : Nat) (p : Submission) : p.overdue turn = true ↔ p.due ≤ turn := by
  simp [Submission.overdue]

/-- The requester of the oldest overdue request is the one chosen (R156). -/
theorem chooseRequester_oldest_overdue {turn : Nat} {p q : Submission} {ps : List Submission}
    (h : (p :: ps).find? (fun x => x.overdue turn) = some q) : chooseRequester turn p ps = q.requester := by
  unfold chooseRequester
  split
  · next hall =>
    rcases List.mem_cons.mp (List.mem_of_find?_eq_some h) with rfl | hq
    · rfl
    · exact (by simpa using List.all_eq_true.mp hall q hq : q.requester = p.requester).symm
  · simp only [h]

/-- The oldest pending request, once overdue, is the one served (R156). -/
theorem State.select_oldest_overdue {s : State} {p : Submission} {ps : List Submission} (hs : s.pending = p :: ps)
    (hp : p.due ≤ s.turn) : s.select = some (p, ps) := by
  have hf : (p :: ps).find? (fun x => x.overdue s.turn) = some p := by simp [hp]
  simp only [State.select, hs, chooseRequester_oldest_overdue hf, takeOldest, if_true]

end Sys2Proof.Machine
end

