-- ==== Sys2Proof/WellFormed.lean ====
section
/-! DEFINITION. Which terms of `Instr` are well formed: the immediate lies in the legal range of its command, the table of
30_encoding.md R44. (Every term has an encoding; one that is not well formed is a word that reaches its command's rule and
is answered with a fault there, R45.) -/

namespace Sys2Proof

/-- R44, R79: the exponent of `RDIVPOT` is 0..31. -/
abbrev rdivpotExponentOk (exponent : Imm6) : Prop := 0 ≤ exponent.toInt ∧ exponent.toInt ≤ 31

/-- R44, R80: the exponent of `SRMULPOT` is −31..31. -/
abbrev srmulpotExponentOk (exponent : Imm6) : Prop := -31 ≤ exponent.toInt ∧ exponent.toInt ≤ 31

/-- R44, R101: the format descriptor `K` of `EXPN` is 0..29. -/
abbrev expnFormatOk (k : Imm6) : Prop := 0 ≤ k.toInt ∧ k.toInt ≤ 29

/-- The immediate of an instruction lies in the legal range of its command (R44). -/
def Instr.wellFormed : Instr → Bool
  | .maskz _ => true
  | .masknz _ => true
  | .sel _ _ _ => true
  | .rdivpot _ exponent => decide (rdivpotExponentOk exponent)
  | .srmulpot _ exponent => decide (srmulpotExponentOk exponent)
  | .rhsum _ _ => true
  | .fpmul _ _ => true
  | .expr _ => true
  | .expn _ k => decide (expnFormatOk k)
  | .rcp1px _ => true

end Sys2Proof
end

