-- ==== Sys2Proof/Laws/PerInstr.lean ====
section
/-! SUPPORT. The fields of an encoded instruction, one lemma per constructor of `Instr` (30_encoding.md R41, R43). -/

namespace Sys2Proof.Laws

/-- Each bit of a command word, by the field it lies in. -/
theorem commandWord_getLsbD (imm : Imm6) (op : BitVec 4) (i : Nat) :
    (commandWord imm op).getLsbD i =
      if i < 4 then op.getLsbD i else if i < 10 then imm.getLsbD (i - 4) else false := by
  show BitVec.getLsbD (w := 6 + 6 + 4) ((0#6 ++ imm) ++ op) i = _
  simp only [BitVec.getLsbD_append, BitVec.getLsbD_zero]
  split
  · rfl
  · split <;> split <;> first | rfl | omega

@[simp] theorem opField_commandWord (imm : Imm6) (op : BitVec 4) : opField (commandWord imm op) = op := by
  ext i hi
  simp [opField, commandWord_getLsbD, hi]

@[simp] theorem immField_commandWord (imm : Imm6) (op : BitVec 4) : immField (commandWord imm op) = imm := by
  ext i hi
  have h : 4 + i < 10 := by omega
  simp [immField, commandWord_getLsbD, h, hi]

@[simp] theorem rsvField_commandWord (imm : Imm6) (op : BitVec 4) : rsvField (commandWord imm op) = 0#6 := by
  ext i hi
  have h : ¬ 10 + i < 4 := by omega
  simp [rsvField, commandWord_getLsbD, h]

/-- The command word of an encoded instruction has no reserved bit set, and its opcode and its immediate. -/
def EncodeFields.Statement (i : Instr) : Prop :=
  rsvField (encode i).cw = 0#6 ∧ opField (encode i).cw = i.opcode ∧ immField (encode i).cw = i.immediate

theorem EncodeFields.maskz (a : Word) : EncodeFields.Statement (.maskz a) := by
  simp [EncodeFields.Statement, encode]
theorem EncodeFields.masknz (a : Word) : EncodeFields.Statement (.masknz a) := by
  simp [EncodeFields.Statement, encode]
theorem EncodeFields.sel (mask thenVal elseVal : Word) : EncodeFields.Statement (.sel mask thenVal elseVal) := by
  simp [EncodeFields.Statement, encode]
theorem EncodeFields.rdivpot (x : Word) (exponent : Imm6) : EncodeFields.Statement (.rdivpot x exponent) := by
  simp [EncodeFields.Statement, encode]
theorem EncodeFields.srmulpot (x : Word) (exponent : Imm6) : EncodeFields.Statement (.srmulpot x exponent) := by
  simp [EncodeFields.Statement, encode]
theorem EncodeFields.rhsum (a b : Word) : EncodeFields.Statement (.rhsum a b) := by
  simp [EncodeFields.Statement, encode]
theorem EncodeFields.fpmul (a b : Word) : EncodeFields.Statement (.fpmul a b) := by
  simp [EncodeFields.Statement, encode]
theorem EncodeFields.expr (a : Word) : EncodeFields.Statement (.expr a) := by
  simp [EncodeFields.Statement, encode]
theorem EncodeFields.expn (a : Word) (k : Imm6) : EncodeFields.Statement (.expn a k) := by
  simp [EncodeFields.Statement, encode]
theorem EncodeFields.rcp1px (a : Word) : EncodeFields.Statement (.rcp1px a) := by
  simp [EncodeFields.Statement, encode]

end Sys2Proof.Laws
end

