-- ==== Sys2Proof/Tests/Slice0.lean ====
section
/-! SUPPORT. Tests of the model on values taken from the spec (95_test_vectors.md sections 1 and 2 unless another place is
named), and a witness for the hypotheses of every statement that has some. -/

namespace Sys2Proof.Machine.Tests

/-- A state in which requester `r` alone has one request pending. -/
def one (r : Nat) (q : Request) : State := { State.reset with pending := [⟨r, q, 0⟩] }

/-- What was read of the responses delivered, if the outcome is a next state. -/
def reads : Host.Outcome State Fault Refusal → List Answer
  | .next s => s.delivered.map (fun d => d.response.read)
  | .fault _ => []
  | .refused _ => []

/-- What one step answers to a request. -/
def answered (q : Request) : List Answer := reads (step (one 7 q))

/-! ### WellFormed: an ill-formed term for each check -/

theorem test_rdivpot_negative_exponent_ill_formed : Instr.wellFormed (.rdivpot 8 (-1)) = false := by decide
theorem test_srmulpot_minus_32_ill_formed : Instr.wellFormed (.srmulpot 8 (-32)) = false := by decide
theorem test_expn_format_30_ill_formed : Instr.wellFormed (.expn 0 30) = false := by decide
theorem test_expn_format_minus_1_ill_formed : Instr.wellFormed (.expn 0 (-1)) = false := by decide
theorem test_limits_well_formed : Instr.wellFormed (.rdivpot 8 31) ∧ Instr.wellFormed (.srmulpot 8 (-31)) ∧
    Instr.wellFormed (.expn 0 29) := by decide

/-! ### Decoding: a word of every command written out from R41 and R43, `rrrrrr iiiiii oooo` -/

theorem test_decode_maskz : decode ⟨0b0000000000000000, 7, 1, 2⟩ = .ok (.maskz 7) := by decide
theorem test_decode_masknz : decode ⟨0b0000000000000001, 7, 1, 2⟩ = .ok (.masknz 7) := by decide
theorem test_decode_sel : decode ⟨0b0000000000000010, 7, 1, 2⟩ = .ok (.sel 7 1 2) := by decide
theorem test_decode_rdivpot : decode ⟨0b0000000111110011, 7, 1, 2⟩ = .ok (.rdivpot 7 31) := by decide
theorem test_decode_srmulpot : decode ⟨0b0000001000010100, 7, 1, 2⟩ = .ok (.srmulpot 7 (-31)) := by decide
theorem test_decode_rhsum : decode ⟨0b0000000000000101, 7, 1, 2⟩ = .ok (.rhsum 7 1) := by decide
theorem test_decode_fpmul : decode ⟨0b0000000000000110, 7, 1, 2⟩ = .ok (.fpmul 7 1) := by decide
theorem test_decode_expr : decode ⟨0b0000000000000111, 7, 1, 2⟩ = .ok (.expr 7) := by decide
theorem test_decode_expn : decode ⟨0b0000000001011000, 7, 1, 2⟩ = .ok (.expn 7 5) := by decide
theorem test_decode_rcp1px : decode ⟨0b0000000000001001, 7, 1, 2⟩ = .ok (.rcp1px 7) := by decide
/-- Section 2.9: a reserved bit, a reserved opcode, an immediate where there must be none. -/
theorem test_decode_rejects : decode ⟨0x8006, 0, 0, 0⟩ = .error .reservedBitSet ∧
    decode ⟨0x000F, 0, 0, 0⟩ = .error .reservedOpcode ∧ decode ⟨0x03F0, 0, 0, 0⟩ = .error .immediateNotZero := by decide
theorem test_decodeTableWord : decodeTableWord 16 0x0014 = some (.srmulpot 0 1) ∧ decodeTableWord 16 0x000A = none := by
  decide

/-! ### One step of each command -/

/-- Unread operand fields hold stale values. -/
theorem test_maskz_zero : answered ⟨0x0000, 0, 0x11111111, 0x22222222⟩ = [.ok 0xFFFFFFFF] := by decide
theorem test_maskz_min : answered ⟨0x0000, 0x80000000, 0, 0⟩ = [.ok 0] := by decide
theorem test_masknz_minus_5 : answered ⟨0x0001, 0xFFFFFFFB, 0, 0⟩ = [.ok 0xFFFFFFFF] := by decide
theorem test_masknz_zero : answered ⟨0x0001, 0, 0, 0⟩ = [.ok 0] := by decide
theorem test_sel_mixed : answered ⟨0x0002, 0xFFFF0000, 0x12345678, 0x9ABCDEF0⟩ = [.ok 0x1234DEF0] := by decide
theorem test_sel_sign : answered ⟨0x0002, 0x80000000, 0x80000000, 0x7FFFFFFF⟩ = [.ok 0xFFFFFFFF] := by decide
theorem test_rdivpot_negative_tie : answered ⟨0x0033, -12, 0, 0⟩ = [.ok (-2)] := by decide
theorem test_rdivpot_31 : answered ⟨0x01F3, -1073741823, 0, 0⟩ = [.ok 0] := by decide
theorem test_srmulpot_saturates : answered ⟨0x0014, 1073741824, 0, 0⟩ = [.ok 0x7FFFFFFF] := by decide
theorem test_srmulpot_negative_exponent : answered ⟨0x03E4, -7, 0, 0⟩ = [.ok (-2)] := by decide
theorem test_rhsum_wide_sum : answered ⟨0x0005, 0x7FFFFFFF, 0x7FFFFFFF, 0⟩ = [.ok 0x7FFFFFFF] := by decide
theorem test_rhsum_negative_tie : answered ⟨0x0005, 3, -4, 0⟩ = [.ok (-1)] := by decide
theorem test_fpmul_saturating_pair : answered ⟨0x0006, 0x80000000, 0x80000000, 0⟩ = [.ok 0x7FFFFFFF] := by decide
theorem test_fpmul_negative_tie : answered ⟨0x0006, -3, 1073741824, 0⟩ = [.ok (-1)] := by decide
theorem test_expr_example : answered ⟨0x0007, -400000000, 0, 0⟩ = [.ok 1782527415] := by decide
theorem test_expr_zero_faults : answered ⟨0x0007, 0, 0, 0⟩ = [.fault .outOfDomain] := by decide
/-- The order of the ladder's rungs, C7. -/
theorem test_expn_ladder_order : answered ⟨0x0058, -558538332, 0, 0⟩ = [.ok 521619] := by decide
/-- Through the clamp, X11. -/
theorem test_expn_clamp : answered ⟨0x0068, -1073741825, 0, 0⟩ = [.ok 0] := by decide
theorem test_rcp1px_example : answered ⟨0x0009, 1073741824, 0, 0⟩ = [.ok 1431655762] := by decide
theorem test_rcp1px_max : answered ⟨0x0009, 0x7FFFFFFF, 0, 0⟩ = [.ok 1073741820] := by decide

/-! ### Faults, pseudo-instructions -/

/-- R135: the word before the immediate before the operand. -/
theorem test_fault_priority : answered ⟨0x05E8, 5, 0, 0⟩ = [.fault .illegalCommand] ∧
    answered ⟨0x01E8, 5, 0, 0⟩ = [.fault .invalidFormat] ∧ answered ⟨0x0058, 5, 0, 0⟩ = [.fault .outOfDomain] := by decide
/-- R79, R80, R44: the exponents just outside and just inside. -/
theorem test_exponent_limits : answered ⟨0x03F3, 8, 0, 0⟩ = [.fault .invalidExponent] ∧
    answered ⟨0x0204, 8, 0, 0⟩ = [.fault .invalidExponent] ∧ answered ⟨0x0214, 8, 0, 0⟩ = [.ok 0] := by decide
/-- Two responses in order, P4: the fault does not stick. -/
theorem test_fault_does_not_stick :
    reads (runEvents [.issue 1 ⟨0x0058, 5, 0, 0⟩, .issue 1 ⟨0x0058, 0, 0, 0⟩, .serve, .serve] State.reset) =
      [.fault .outOfDomain, .ok 0x7FFFFFFF] := by decide
/-- R156: requester 9's request is overdue on turn 0, and so is served before the older one of requester 7. -/
theorem test_overdue_request_is_served :
    ({ State.reset with pending := [⟨7, ⟨0, 0, 0, 0⟩, 1⟩, ⟨9, ⟨1, 0, 0, 0⟩, 0⟩] } : State).select =
      some (⟨9, ⟨1, 0, 0, 0⟩, 0⟩, [⟨7, ⟨0, 0, 0, 0⟩, 1⟩]) := by decide
/-- P2: `EXPN` then `RCP1PX` of its result. -/
theorem test_logistic_program :
    (["%t0 = EXPN -100663296, 5", "%t1 = RCP1PX %t0"].mapM parseLine).bind (runProgram []) =
      some [.ok 479168506, .ok 1755727730] := by decide
/-- R52: an alias, a name of a limit, and a line that lacks its immediate. -/
theorem test_assembler_names : (parseLine "fp_mult INT32_MIN, INT32_MIN").bind (AsmLine.assemble []) =
      some ⟨0x0006, 0x80000000, 0x80000000, 0⟩ ∧ parseLine "RDIVPOT 8" = some ⟨none, .rdivpot, [], some 8⟩ ∧
    (parseLine "RDIVPOT 8").bind (AsmLine.assemble []) = none ∧ parseLine "NOP 8" = none := by decide
/-- Log 13: a name written again by a command that faults stands for nothing; its next line has no request. -/
theorem test_name_forgotten_after_fault :
    (["%t0 = MASKZ 0", "%t0 = EXPN 5, 5", "MASKZ %t0"].mapM parseLine).bind (runProgram []) = none ∧
    (["%t0 = MASKZ 0", "EXPN 5, 5", "MASKZ %t0"].mapM parseLine).bind (runProgram []) =
      some [.ok 0xFFFFFFFF, .fault .outOfDomain, .ok 0] := by decide
/-- R52, log 13: both cases of a hexadecimal digit, and a letter in a decimal literal. -/
theorem test_numerals : parseOperand "0x9aBf".toList = some (.hexadecimal 39615) ∧
    parseOperand "-120".toList = some (.decimal (-120)) ∧ parseOperand "1A".toList = none ∧
    parseOperand "0xG".toList = none := by decide
/-- R130. -/
theorem test_status_codes : Status.ok.code = 0 ∧ Violation.illegalCommand.status.code = 1 ∧
    Violation.invalidExponent.status.code = 2 ∧ Violation.invalidFormat.status.code = 3 ∧
    Violation.outOfDomain.status.code = 4 := by decide
/-- The integer formulas on the examples of R95, R109, R119 and C7. -/
theorem test_integer_formulas : exprZ (-400000000) = 1782527415 ∧ expnZ (-100000000) 5 = 483927985 ∧
    expnZ (-558538332) 5 = 521619 ∧ rcp1pxZ 1073741824 = 1431655762 ∧ rcp1pxZ 0 = 2147483647 := by decide

/-! ### Witnesses: values that meet the hypotheses of each statement that has some -/

theorem witness_DecodeInvertsEncode : decode ⟨0x0005, 1, 2, 3⟩ = .ok (.rhsum 1 2) ∧
    (Instr.rhsum 1 2).format.readsB = true ∧ (Instr.sel 1 2 3).format.readsC = true := by decide
theorem witness_UnreadOperandsAreIgnored : (0x0000#16).toNat % 16 ∈ [0, 1, 3, 4, 7, 8, 9] ∧
    (0x01D8#16).toNat % 16 ∈ [0, 1, 3, 4, 7, 8, 9] ∧ (0x0006#16).toNat % 16 ∈ [5, 6] := by decide
theorem witness_StepRunsTheDecodedInstruction :
    (one 7 ⟨0x0006, 3, 4, 0⟩).select = some (⟨7, ⟨0x0006, 3, 4, 0⟩, 0⟩, []) ∧
    decode ⟨0x0006, 3, 4, 0⟩ = .ok (.fpmul 3 4) := by decide
theorem witness_StepAnswersAnIllegalWord :
    (one 7 ⟨0x0406, 3, 4, 0⟩).select = some (⟨7, ⟨0x0406, 3, 4, 0⟩, 0⟩, []) ∧
    decode ⟨0x0406, 3, 4, 0⟩ = .error .reservedBitSet := by decide
theorem witness_StepDeliversTheAnswer :
    (one 7 ⟨0x0009, 0, 0, 0⟩).select = some (⟨7, ⟨0x0009, 0, 0, 0⟩, 0⟩, []) := by decide
theorem witness_OldestOfOneRequesterIsServed : State.reset.pending = [] ∧
    (one 7 ⟨0, 0, 0, 0⟩).pending ≠ [] ∧
    ({ one 7 ⟨0, 0, 0, 0⟩ with pending := [⟨7, ⟨0, 0, 0, 0⟩, 0⟩, ⟨7, ⟨1, 0, 0, 0⟩, 4⟩] } : State).pending =
      ⟨7, ⟨0, 0, 0, 0⟩, 0⟩ :: [⟨7, ⟨1, 0, 0, 0⟩, 4⟩] ∧
    ∀ x ∈ [(⟨7, ⟨1, 0, 0, 0⟩, 4⟩ : Submission)], x.requester = 7 := by decide
theorem witness_IdleStepChangesNothing : State.reset.pending = [] := by decide
theorem witness_RdivpotResult : 0 ≤ (0 : Imm6).toInt ∧ 0 ≤ (31 : Imm6).toInt := by decide
theorem witness_SrmulpotResult : -31 ≤ (-31 : Imm6).toInt ∧ -31 ≤ (31 : Imm6).toInt := by decide
theorem witness_ExprResult : (-2 ^ 29 ≤ (-536870912 : Word).toInt ∧ (-536870912 : Word).toInt ≤ -1) ∧
    -2 ^ 29 ≤ (-1 : Word).toInt ∧ (-1 : Word).toInt ≤ -1 := by decide
theorem witness_ExpnResult : (0 ≤ (0 : Imm6).toInt ∧ (0 : Imm6).toInt ≤ 29 ∧ (0 : Word).toInt ≤ 0) ∧
    0 ≤ (29 : Imm6).toInt ∧ (29 : Imm6).toInt ≤ 29 ∧ int32Min.toInt ≤ 0 := by decide
theorem witness_Rcp1pxResult : 0 ≤ (0 : Word).toInt ∧ 0 ≤ int32Max.toInt := by decide
theorem witness_ContractViolationsAreAnswered : (-1 : Imm6).toInt < 0 ∧ (-32 : Imm6).toInt = -32 ∧
    (30 : Imm6).toInt > 29 ∧ (0 ≤ (29 : Imm6).toInt ∧ (29 : Imm6).toInt ≤ 29 ∧ (1 : Word).toInt > 0) ∧
    (-536870913 : Word).toInt < -2 ^ 29 ∧ (0 : Word).toInt ≥ 0 ∧ (-1 : Word).toInt < 0 := by decide
theorem witness_BitSelectLaws : (5 : Word) ≠ 0#32 := by decide
theorem witness_RdivpotTiesGoAwayFromZero : (3 : Word).toInt = (2 * 1 + 1) * 2 ^ (1 - 1) ∧
    (-1073741824 : Word).toInt = (2 * -1 + 1) * 2 ^ (31 - 1) ∧ (5 : Word).toInt ≠ -2 ^ 31 := by decide
theorem witness_FpmulCommutesAndIsNotOdd : (1 : Word).toInt ≠ -2 ^ 31 ∧
    (1 : Word).toInt * (1073741824 : Word).toInt % 2 ^ 31 = 2 ^ 30 := by decide
theorem witness_FpmulErrorAtMostHalf : ¬(int32Min.toInt = -2 ^ 31 ∧ int32Max.toInt = -2 ^ 31) ∧
    int32Min.toInt = -2 ^ 31 := by decide
theorem witness_FpmulMonotone : 0 ≤ (0 : Word).toInt ∧ 0 ≤ int32Max.toInt ∧ int32Min.toInt ≤ (3 : Word).toInt := by
  decide
theorem witness_FpmulComposesFormats : ¬((3 : Word).toInt = -2 ^ 31 ∧ (5 : Word).toInt = -2 ^ 31) := by decide
theorem witness_ExprMonotone : -2 ^ 29 ≤ (-536870912 : Word).toInt ∧
    (-536870912 : Word).toInt ≤ (-1 : Word).toInt ∧ (-1 : Word).toInt ≤ -1 := by decide
theorem witness_ExprRange : -2 ^ 29 ≤ (-268435456 : Word).toInt ∧ (-268435456 : Word).toInt ≤ -1 := by decide
theorem witness_ExprNearExponential : -2 ^ 29 ≤ (-40101 : Word).toInt ∧ (-40101 : Word).toInt ≤ -1 := by decide
theorem witness_ConstantsAreCorrectlyRounded : ((0 : Int), (790015084 : Word)) ∈ ladder := by decide
theorem witness_ExpnReductionStaysInDomain : 29 ≤ 29 ∧ (0 : Word).toInt ≤ 0 ∧ int32Min.toInt ≤ 0 := by decide
theorem witness_ExpnClampsToZero : (6 ≤ 6 ∧ 6 ≤ 29 ∧ (-1073741825 : Word).toInt < -2 ^ (36 - 6)) ∧
    6 ≤ 29 ∧ 29 ≤ 29 ∧ (-129 : Word).toInt < -2 ^ (36 - 29) := by decide
theorem witness_ExpnOfZero : 0 ≤ 29 ∧ 29 ≤ 29 := by decide
theorem witness_ExpnIsNeverNegative : 5 ≤ 29 ∧ (-100000000 : Word).toInt ≤ 0 := by decide
theorem witness_ExpnMonotone : 5 ≤ 29 ∧ int32Min.toInt ≤ (0 : Word).toInt ∧ (0 : Word).toInt ≤ 0 := by decide
theorem witness_Rcp1pxNearReciprocal : 0 ≤ (47128705 : Word).toInt := by decide
theorem witness_Rcp1pxSaturatesForFourOperands : 0 ≤ (3 : Word).toInt ∧ 0 ≤ (4 : Word).toInt := by decide
theorem witness_ExpnThenRcp1pxNeverFaults : 0 ≤ (5 : Imm6).toInt ∧ (5 : Imm6).toInt ≤ 29 ∧
    (-100663296 : Word).toInt ≤ 0 := by decide
theorem witness_StepKeepsThePromise : promised 7 (one 7 ⟨0x0000, 0, 0, 0⟩) = [.ok 0xFFFFFFFF] ∧
    step (one 7 ⟨0x0000, 0, 0, 0⟩) = .next ⟨[], [⟨7, ⟨0xFFFFFFFF, .ok⟩⟩], 7, 1⟩ := ⟨by decide, rfl⟩
theorem witness_RequestersAnsweredInOrder : withoutReset [.issue 1 ⟨0, 0, 0, 0⟩, .serve] ∧
    issuedBy 1 [.issue 1 ⟨0, 0, 0, 0⟩, .serve] = [⟨0, 0, 0, 0⟩] := by
  unfold withoutReset; decide
/-- Two requesters wait, one request due on turn 3 and one on turn 5; requests go on being issued; 5 − 0 turns and one more
for each of the two. -/
theorem witness_EveryPendingRequestIsAnswered :
    (∀ p ∈ [(⟨7, ⟨0, 0, 0, 0⟩, 3⟩ : Submission), ⟨9, ⟨0, 0, 0, 0⟩, 5⟩], p.due ≤ 5) ∧
    withoutReset [.issue 8 ⟨0, 0, 0, 0⟩, .serve, .serve, .serve, .issue 8 ⟨0, 0, 0, 0⟩, .serve, .serve, .serve, .serve] ∧
    5 - State.reset.turn + 2 ≤ [HostEvent.issue 8 ⟨0, 0, 0, 0⟩, .serve, .serve, .serve, .issue 8 ⟨0, 0, 0, 0⟩, .serve,
      .serve, .serve, .serve].count .serve := by
  unfold withoutReset; decide
theorem witness_FaultsDoNotStick : State.reset.pending = [] ∧
    answerRequest ⟨0x0058, 5, 0, 0⟩ = .fault .outOfDomain := by decide
theorem witness_SameRequestSameAnswer :
    (one 7 ⟨0, 0, 0, 0⟩).select = some (⟨7, ⟨0, 0, 0, 0⟩, 0⟩, []) ∧
    (one 9 ⟨0, 0, 0, 0⟩).select = some (⟨9, ⟨0, 0, 0, 0⟩, 0⟩, []) ∧
    step (one 7 ⟨0, 0, 0, 0⟩) = .next ⟨[], [⟨7, ⟨0xFFFFFFFF, .ok⟩⟩], 7, 1⟩ ∧
    step (one 9 ⟨0, 0, 0, 0⟩) = .next ⟨[], [⟨9, ⟨0xFFFFFFFF, .ok⟩⟩], 9, 1⟩ := ⟨by decide, by decide, rfl, rfl⟩
theorem witness_DeliveredRecordIsNotRead :
    step (one 7 ⟨0, 0, 0, 0⟩) = .next ⟨[], [⟨7, ⟨0xFFFFFFFF, .ok⟩⟩], 7, 1⟩ := rfl
theorem witness_FaultFreeRunStaysFaultFree : (one 7 ⟨0, 0, 0, 0⟩).faultFree ∧
    (∀ p ∈ (one 7 ⟨0, 0, 0, 0⟩).pending, ∃ r, answerRequest p.request = .ok r) ∧
    step (one 7 ⟨0, 0, 0, 0⟩) = .next ⟨[], [⟨7, ⟨0xFFFFFFFF, .ok⟩⟩], 7, 1⟩ :=
  ⟨by simp [State.faultFree, one, State.reset], by simpa [one] using ⟨0xFFFFFFFF#32, rfl⟩, rfl⟩
theorem witness_SelzAndSelnzSelect : AsmOperand.value [] (.decimal 0) = some 0 ∧
    AsmOperand.value [] (.hexadecimal 0xFFFFFFFF) = some 0xFFFFFFFF ∧ AsmOperand.value [] .int32Max = some 0x7FFFFFFF ∧
    AsmOperand.hexadecimal 0xFFFFFFFF ≠ .temp ['m'] ∧ AsmOperand.int32Max ≠ .temp ['m'] := by decide
theorem witness_RescaleConvertsFormats : AsmOperand.value [] (.decimal (-7)) = some (-7) ∧ -31 ≤ (0 : Int) - 2 ∧
    (0 : Int) - 2 ≤ 31 ∧ ((Pseudo.rescale none (.decimal (-7)) 0 2).expand).bind (runProgram []) = some [.ok (-2)] ∧
    -2 ^ 31 < (-2 : Word).toInt ∧ (-2 : Word).toInt < 2 ^ 31 - 1 := by decide
theorem witness_HalveRoundsAwayFromZero : AsmOperand.value [] .int32Min = some 0x80000000 := by decide

end Sys2Proof.Machine.Tests
end

/-! The statements of 00_scope.md: the formats of `FPMUL` (R9, R10), the answer as a function of the request alone
(R14) and `EXPR` as requests of the layer below it (R13). Before them, what they rest on: a step said once as the answer of its
request, and `FPMUL` over the integers. -/

namespace Sys2Proof.Machine

/-! ### A step is the answer of the request it serves -/

/-- Every command ends by responding with its answer and does nothing else. -/
theorem exec_eq_respond (i : Instr) (s : State) : exec i s = .next (s.respond (answerInstr i)) := by
  cases i <;> rfl

theorem answerRequest_of_decode_ok {q : Request} {i : Instr} (h : decode q = .ok i) :
    answerRequest q = answerInstr i := by
  simp [answerRequest, h]

theorem answerRequest_of_decode_error {q : Request} {e : DecodeError} (h : decode q = .error e) :
    answerRequest q = .fault .illegalCommand := by
  simp [answerRequest, h]

/-- All that a step does once a request is selected (R28): the request goes into service and is answered. -/
theorem step_of_select {s : State} {sub : Submission} {rest : List Submission} (h : s.select = some (sub, rest)) :
    step s = .next ((s.accept sub rest).respond (answerRequest sub.request)) := by
  cases hd : decode sub.request with
  | error e => simp [step, h, hd, answerRequest_of_decode_error hd]
  | ok i => simp [step, h, hd, answerRequest_of_decode_ok hd, exec_eq_respond]

/-- The response a step delivers goes to the requester served and reads as the answer of its request. -/
theorem step_delivers_answer {s t : State} {sub : Submission} {rest : List Submission}
    (hsel : s.select = some (sub, rest)) (hstep : step s = .next t) :
    ∃ p : Response, p.read = answerRequest sub.request ∧ t.delivered = s.delivered ++ [⟨sub.requester, p⟩] := by
  rw [step_of_select hsel] at hstep
  obtain ⟨p, hread, hp⟩ := State.respond_eq (answerRequest sub.request) (s.accept sub rest)
  cases hstep
  exact ⟨p, hread, by simp [hp]⟩

/-- Settles O54: each response reads as `answerRequest` of the one request. -/
theorem sameRequestSameAnswer : Obligations.SameRequestSameAnswer := by
  intro s s' t t' sub sub' rest rest' hsel hsel' hreq hstep hstep'
  obtain ⟨p, hread, hdel⟩ := step_delivers_answer hsel hstep
  obtain ⟨p', hread', hdel'⟩ := step_delivers_answer hsel' hstep'
  exact ⟨_, _, hdel, hdel', by simp only [hread, hread', hreq]⟩

/-! ### `FPMUL` over the integers -/

/-- R86: nudging by the sign and truncating is rounding to nearest, ties toward plus infinity. -/
theorem tdiv_nudge_eq (m : Int) :
    tdiv (m + if m ≥ 0 then 2 ^ 30 else 1 - 2 ^ 30) (2 ^ 31) = (m + 2 ^ 30) / 2 ^ 31 := by
  unfold tdiv
  split_ifs <;> omega

/-- Of a product of two words only that of two minima exceeds `2^62 - 2^31` in magnitude. -/
theorem abs_toInt_mul_le {x y : Word} (h : ¬(x.toInt = -2 ^ 31 ∧ y.toInt = -2 ^ 31)) :
    |x.toInt * y.toInt| ≤ 2 ^ 62 - 2 ^ 31 := by
  have hx := toInt_bounds x
  have hy := toInt_bounds y
  rw [abs_mul]
  have hax : |x.toInt| ≤ 2 ^ 31 := abs_le.mpr (by omega)
  have hay : |y.toInt| ≤ 2 ^ 31 := abs_le.mpr (by omega)
  rcases not_and_or.mp h with hne | hne
  · have hax' : |x.toInt| ≤ 2 ^ 31 - 1 := abs_le.mpr (by omega)
    exact (mul_le_mul hax' hay (abs_nonneg _) (by norm_num)).trans (by norm_num)
  · have hay' : |y.toInt| ≤ 2 ^ 31 - 1 := abs_le.mpr (by omega)
    exact (mul_le_mul hax hay' (abs_nonneg _) (by norm_num)).trans (by norm_num)

/-- R86: every pair but that of two minima gives the rounded quotient of the exact product, which fits. -/
theorem fpmul_toInt {x y : Word} (h : ¬(x.toInt = -2 ^ 31 ∧ y.toInt = -2 ^ 31)) :
    (fpmul x y).toInt = (x.toInt * y.toInt + 2 ^ 30) / 2 ^ 31 := by
  have hne : ¬(x = int32Min ∧ y = int32Min) := by
    rintro ⟨rfl, rfl⟩
    exact h (by decide)
  obtain ⟨hlo, hhi⟩ := abs_le.mp (abs_toInt_mul_le h)
  simp only [fpmul, if_neg hne, tdiv_nudge_eq]
  exact wrap32_toInt (by omega) (by omega)

/-- R88 (c): `FPMUL` is within half a unit of the exact product over `2^31`. -/
theorem fpmul_error_le_half {x y : Word} (h : ¬(x.toInt = -2 ^ 31 ∧ y.toInt = -2 ^ 31)) :
    2 * |(fpmul x y).toInt * 2 ^ 31 - x.toInt * y.toInt| ≤ 2 ^ 31 := by
  rw [fpmul_toInt h]
  have hround : |(x.toInt * y.toInt + 2 ^ 30) / 2 ^ 31 * 2 ^ 31 - x.toInt * y.toInt| ≤ 2 ^ 30 :=
    abs_le.mpr (by omega)
  omega

/-! ### Formats -/

/-- R9: a raw times the unit of its format. -/
theorem qValue_eq_mul (k : Int) (x : Word) : qValue k x = x.toInt * (2 : Rat) ^ (k - 31) := by
  rw [qValue, div_eq_mul_inv, ← zpow_neg, neg_sub]

/-- R10: a `Qj` value times a `Qk` value, as the product of the raws over `2^31` in `Q(j+k)`. -/
theorem qValue_mul (j k : Int) (x y : Word) :
    qValue j x * qValue k y = (x.toInt * y.toInt : Int) / 2 ^ 31 * (2 : Rat) ^ (j + k - 31) := by
  have hunits : (2 : Rat) ^ (j - 31) * (2 : Rat) ^ (k - 31) = (2 : Rat) ^ (j + k - 31) / 2 ^ 31 := by
    rw [← zpow_add₀ two_ne_zero, ← zpow_natCast, ← zpow_sub₀ two_ne_zero]
    congr 1
    push_cast
    ring
  rw [qValue_eq_mul, qValue_eq_mul, mul_mul_mul_comm, hunits]
  push_cast
  ring

/-- The half unit of `fpmul_error_le_half`, over the rationals. -/
theorem fpmul_rat_error_le_half {x y : Word} (h : ¬(x.toInt = -2 ^ 31 ∧ y.toInt = -2 ^ 31)) :
    |((fpmul x y).toInt : Rat) - (x.toInt * y.toInt : Int) / 2 ^ 31| ≤ 1 / 2 := by
  have herr : (2 : Rat) * |((fpmul x y).toInt : Rat) * 2 ^ 31 - (x.toInt * y.toInt : Int)| ≤ 2 ^ 31 := by
    exact_mod_cast fpmul_error_le_half h
  have hdiv : ((fpmul x y).toInt : Rat) - (x.toInt * y.toInt : Int) / 2 ^ 31 =
      ((fpmul x y).toInt * 2 ^ 31 - (x.toInt * y.toInt : Int)) / 2 ^ 31 := by ring
  rw [hdiv, abs_div, abs_of_pos (by norm_num : (0 : Rat) < 2 ^ 31), div_le_iff₀ (by norm_num)]
  norm_num at herr ⊢
  linarith

/-- Settles O33: the error of `FPMUL` in raw units, half of one at most, times the unit of `Q(j+k)`. -/
theorem fpmulComposesFormats : Obligations.FpmulComposesFormats := by
  intro x y j k h
  have hunit : (0 : Rat) < (2 : Rat) ^ (j + k - 31) := zpow_pos two_pos _
  rw [qValue_mul, qValue_eq_mul, ← sub_mul, abs_mul, abs_of_pos hunit]
  exact mul_le_mul_of_nonneg_right (fpmul_rat_error_le_half h) hunit.le

/-! ### Program P1 -/

/-- The command word of `FPMUL` (R85) decodes to it, whatever `C` holds. -/
theorem decode_fpmul (a b c : Word) : decode ⟨commandWord 0#6 6#4, a, b, c⟩ = .ok (.fpmul a b) := by
  simp [decode, requireNoImmediate]

/-- The command words of `SRMULPOT` (R73) decode to it, whatever `B` and `C` hold. -/
theorem decode_srmulpot (exponent : Imm6) (a b c : Word) :
    decode ⟨commandWord exponent 4#4, a, b, c⟩ = .ok (.srmulpot a exponent) := by
  simp [decode]

theorem answerRequest_fpmul (a b c : Word) : answerRequest ⟨commandWord 0#6 6#4, a, b, c⟩ = .ok (fpmul a b) :=
  answerRequest_of_decode_ok (decode_fpmul a b c)

/-- In contract, `SRMULPOT` is answered with its result. -/
theorem answerRequest_srmulpot {exponent : Imm6} (h : srmulpotCheck exponent = none) (a b c : Word) :
    answerRequest ⟨commandWord exponent 4#4, a, b, c⟩ = .ok (srmulpot a (immValue exponent)) := by
  rw [answerRequest_of_decode_ok (decode_srmulpot exponent a b c), answerInstr, h, answerOf_none]

/-- Settles O34: the seven answers are the seven intermediates of R95, in its order. -/
theorem exprIsItsPrimitiveRequests : Obligations.ExprIsItsPrimitiveRequests := by
  have hfpmul : (0x0006 : CommandWord) = commandWord 0#6 6#4 := by decide
  have hquarter : (0x03E4 : CommandWord) = commandWord (-2) 4#4 := by decide
  have hhalf : (0x03F4 : CommandWord) = commandWord (-1) 4#4 := by decide
  intro a
  rw [hfpmul, hquarter, hhalf]
  exact ⟨_, _, _, _, _, _, _, answerRequest_fpmul .., answerRequest_fpmul .., answerRequest_fpmul ..,
    answerRequest_srmulpot (by decide) .., answerRequest_fpmul .., answerRequest_srmulpot (by decide) ..,
    answerRequest_fpmul .., rfl⟩

end Sys2Proof.Machine

/-! The statements of 10_state.md: a step takes the oldest request of one requester and answers it (R28), its record is only
added to (log 4), and every pending request is answered in the end (R28, R156). -/

namespace Sys2Proof.Machine

/-! ### The request selected -/

theorem State.select_of_pending_nil {s : State} (h : s.pending = []) : s.select = none := by
  simp [State.select, h]

/-- The oldest request of the requester chosen, which has one pending, is selected. -/
theorem State.select_of_pending_ne_nil {s : State} (h : s.pending ≠ []) :
    ∃ sub rest before after, s.select = some (sub, rest) ∧ s.pending = before ++ sub :: after ∧
      rest = before ++ after ∧ ∀ x ∈ before, x.requester ≠ sub.requester := by
  obtain ⟨p, ps, hs⟩ := List.exists_cons_of_ne_nil h
  obtain ⟨⟨sub, rest⟩, htake⟩ :=
    Option.isSome_iff_exists.mp (takeOldest_isSome (chooseRequester_mem s.turn p ps))
  obtain ⟨hreq, before, after, hsplit, hrest, hbefore⟩ := takeOldest_eq_some htake
  exact ⟨sub, rest, before, after, by simp only [State.select, hs, htake], hs.trans hsplit, hrest, hreq ▸ hbefore⟩

/-- With one requester pending there is no choice. -/
theorem State.select_of_one_requester {s : State} {p : Submission} {ps : List Submission} (hs : s.pending = p :: ps)
    (hone : ∀ x ∈ ps, x.requester = p.requester) : s.select = some (p, ps) := by
  have hchoose : chooseRequester s.turn p ps = p.requester := by
    simp [chooseRequester, List.all_eq_true.mpr fun x hx => beq_iff_eq.mpr (hone x hx)]
  simp only [State.select, hs, hchoose, takeOldest, if_true]

/-- Settles O11: nothing pending, something pending, and one requester alone. -/
theorem oldestOfOneRequesterIsServed : Obligations.OldestOfOneRequesterIsServed := fun _ =>
  ⟨State.select_of_pending_nil, State.select_of_pending_ne_nil, fun _ _ => State.select_of_one_requester⟩

/-! ### What a step does -/

/-- Settles O8, by the branch of `step` for a word that decodes. -/
theorem stepRunsTheDecodedInstruction : Obligations.StepRunsTheDecodedInstruction := by
  intro s sub rest i hsel hdec
  simp only [step, hsel, hdec, State.accept]

/-- The frame of a step that serves: the request leaves the queue, its one response joins the record, the requester in
service is its own and one turn is counted (R28, R32). -/
theorem step_eq_of_select {s : State} {sub : Submission} {rest : List Submission} (h : s.select = some (sub, rest)) :
    ∃ p : Response, p.read = answerRequest sub.request ∧
      step s = .next
        { pending := rest, delivered := s.delivered ++ [⟨sub.requester, p⟩],
          serving := sub.requester, turn := s.turn + 1 } := by
  obtain ⟨p, hread, hp⟩ := State.respond_eq (answerRequest sub.request) (s.accept sub rest)
  exact ⟨p, hread, by rw [step_of_select h, hp]; rfl⟩

/-- Settles O10: the response is the one of `State.respond_eq`, to the requester put in service. -/
theorem stepDeliversTheAnswer : Obligations.StepDeliversTheAnswer :=
  fun _ _ _ => step_eq_of_select

/-- An idle FXC stays as it is (log 6). -/
theorem step_of_pending_nil {s : State} (h : s.pending = []) : step s = .next s := by
  simp only [step, State.select_of_pending_nil h]

/-! ### The record of responses -/

/-- The response that ends a command is the same one whatever the record holds. -/
theorem State.respond_withRecord (a : Answer) (s : State) :
    ∃ d : Delivery, ∀ record : List Delivery,
      State.respond a { s with delivered := record } = { s with delivered := record ++ [d] } := by
  cases a with
  | ok w => exact ⟨⟨s.serving, ⟨w, .ok⟩⟩, fun _ => rfl⟩
  | fault v => exact ⟨⟨s.serving, ⟨Config.unspecifiedResult s.turn, v.status⟩⟩, fun _ => rfl⟩

theorem State.select_withRecord (s : State) (record : List Delivery) :
    State.select { s with delivered := record } = s.select := rfl

/-- All that a step has to do with the record: it ends in a state found without it, and adds responses found without it. -/
theorem step_withRecord (s : State) :
    ∃ (u : State) (new : List Delivery), ∀ record : List Delivery,
      step { s with delivered := record } = .next { u with delivered := record ++ new } := by
  cases hsel : s.select with
  | none =>
    refine ⟨s, [], fun record => ?_⟩
    simp only [step, State.select_withRecord, hsel, List.append_nil]
  | some served =>
    obtain ⟨sub, rest⟩ := served
    obtain ⟨d, hd⟩ := State.respond_withRecord (answerRequest sub.request) (s.accept sub rest)
    refine ⟨s.accept sub rest, [d], fun record => ?_⟩
    rw [step_of_select ((State.select_withRecord s record).trans hsel), ← hd]
    rfl

/-- Settles O55: the state's own record is one of the records of `step_withRecord`. -/
theorem deliveredRecordIsNotRead : Obligations.DeliveredRecordIsNotRead := by
  intro s t other hstep
  obtain ⟨u, new, hrecord⟩ := step_withRecord s
  obtain rfl : t = { u with delivered := s.delivered ++ new } := by
    simpa using hstep.symm.trans (hrecord s.delivered)
  exact ⟨new, rfl, hrecord other⟩

/-- A run never stops, and the record is only added to, by a reset too (log 4). -/
theorem runEvents_delivered_prefix (es : List HostEvent) (s : State) :
    ∃ t : State, runEvents es s = .next t ∧ s.delivered <+: t.delivered := by
  induction es generalizing s with
  | nil => exact ⟨s, rfl, List.prefix_refl _⟩
  | cons e es ih =>
    have hevent : ∃ u : State, onEvent e s = .next u ∧ s.delivered <+: u.delivered := by
      cases e with
      | issue r q => exact ⟨_, rfl, List.prefix_refl _⟩
      | reset => exact ⟨_, rfl, List.prefix_refl _⟩
      | serve =>
        obtain ⟨u, new, hrecord⟩ := step_withRecord s
        exact ⟨_, hrecord s.delivered, List.prefix_append _ _⟩
    obtain ⟨u, hu, hsu⟩ := hevent
    obtain ⟨t, ht, hut⟩ := ih u
    exact ⟨t, by simp only [runEvents, hu, ht], hsu.trans hut⟩

/-! ### What a requester has received and is owed -/

/-- The answers a requester is owed for the requests of a queue. -/
def owedTo (requester : Nat) (queue : List Submission) : List Answer :=
  (queue.filter (fun p => p.requester == requester)).map (fun p => answerRequest p.request)

theorem promised_eq (r : Nat) (s : State) : promised r s = answersTo r s ++ owedTo r s.pending := by
  simp [promised, pendingOf, owedTo, Function.comp_def]

@[simp] theorem owedTo_nil (r : Nat) : owedTo r [] = [] := rfl

@[simp] theorem owedTo_cons (r : Nat) (sub : Submission) (queue : List Submission) :
    owedTo r (sub :: queue) = (if sub.requester = r then [answerRequest sub.request] else []) ++ owedTo r queue := by
  by_cases h : sub.requester = r <;> simp [owedTo, h]

@[simp] theorem owedTo_append (r : Nat) (front back : List Submission) :
    owedTo r (front ++ back) = owedTo r front ++ owedTo r back := by
  simp [owedTo]

theorem owedTo_eq_nil {r : Nat} {queue : List Submission} (h : ∀ x ∈ queue, x.requester ≠ r) : owedTo r queue = [] := by
  simpa [owedTo] using h

/-- A requester's oldest request is the first it is owed an answer for (R35). -/
theorem owedTo_oldest_first (r : Nat) {sub : Submission} {before : List Submission} (after : List Submission)
    (h : ∀ x ∈ before, x.requester ≠ sub.requester) :
    (if sub.requester = r then [answerRequest sub.request] else []) ++ owedTo r (before ++ after) =
      owedTo r (before ++ sub :: after) := by
  split
  · next hr => simp [hr, owedTo_eq_nil (hr ▸ h)]
  · next hr => simp [hr]

theorem answersTo_prefix {r : Nat} {s t : State} (h : s.delivered <+: t.delivered) : answersTo r s <+: answersTo r t :=
  (h.filter _).map _

theorem answersTo_of_delivered {s t : State} {r' : Nat} {p : Response} (h : t.delivered = s.delivered ++ [⟨r', p⟩])
    (r : Nat) : answersTo r t = answersTo r s ++ if r' = r then [p.read] else [] := by
  by_cases hr : r' = r <;> simp [answersTo, h, hr]

/-- A step with something pending serves some request: the oldest of its requester leaves the queue, and its answer alone is
added to what its requester has received. -/
theorem step_serves {s : State} (h : s.pending ≠ []) :
    ∃ (t : State) (sub : Submission) (before after : List Submission), step s = .next t ∧
      s.select = some (sub, before ++ after) ∧ s.pending = before ++ sub :: after ∧
      (∀ x ∈ before, x.requester ≠ sub.requester) ∧ t.pending = before ++ after ∧ t.turn = s.turn + 1 ∧
      ∀ r : Nat, answersTo r t = answersTo r s ++ if sub.requester = r then [answerRequest sub.request] else [] := by
  obtain ⟨sub, _, before, after, hsel, hsplit, rfl, hbefore⟩ := State.select_of_pending_ne_nil h
  obtain ⟨p, hread, hstep⟩ := step_eq_of_select hsel
  exact ⟨_, sub, before, after, hstep, hsel, hsplit, hbefore, rfl, rfl, hread ▸ answersTo_of_delivered rfl⟩

/-! ### Every pending request is answered -/

theorem core_run_succ {s t : State} (k : Nat) (h : step s = .next t) :
    Host.Core.run Sys2Proof.core (k + 1) s = Host.Core.run Sys2Proof.core k t := by
  have hcore : Sys2Proof.core.step s = .next t := h
  simp only [Host.Core.run, hcore]

/-- R28: steps alone answer the whole queue, one request each, and every requester receives what it was owed. -/
theorem run_pending_length (n : Nat) (s : State) (hn : s.pending.length = n) :
    ∃ t : State, Host.Core.run Sys2Proof.core n s = .next t ∧ t.pending = [] ∧
      ∀ r : Nat, answersTo r t = answersTo r s ++ owedTo r s.pending := by
  induction n generalizing s with
  | zero =>
    have hnil : s.pending = [] := List.length_eq_zero_iff.mp hn
    exact ⟨s, rfl, hnil, by simp [hnil]⟩
  | succ n ih =>
    obtain ⟨u, sub, before, after, hstep, -, hsplit, hbefore, hpending, -, hanswers⟩ :=
      step_serves (List.ne_nil_of_length_eq_add_one hn)
    have hlength : u.pending.length = n := by
      simp only [hsplit, List.length_append, List.length_cons] at hn
      simp only [hpending, List.length_append]
      omega
    obtain ⟨t, hrun, ht, hall⟩ := ih u hlength
    refine ⟨t, (core_run_succ n hstep).trans hrun, ht, fun r => ?_⟩
    rw [hall, hanswers, hpending, hsplit, List.append_assoc, owedTo_oldest_first r after hbefore]

/-- An element of a list in two parts lies in one of them. -/
theorem append_cons_place {sub : Submission} {before after old new : List Submission}
    (h : before ++ sub :: after = old ++ new) :
    (∃ old', old = before ++ sub :: old' ∧ after = old' ++ new) ∨ ∃ new', before = old ++ new' := by
  rcases List.append_eq_append_iff.mp h with ⟨c, hold, hc⟩ | ⟨c, hbefore, -⟩
  · rcases List.cons_eq_append_iff.mp hc with ⟨rfl, -⟩ | ⟨old', rfl, hafter⟩
    · exact .inr ⟨[], by simpa using hold.symm⟩
    · exact .inl ⟨old', hold, hafter⟩
  · exact .inr ⟨c, hbefore⟩

/-- R156: the requesters of the oldest requests are all passed over only before the last of these is overdue. -/
theorem State.turn_lt_of_passed_over {s : State} {sub : Submission} {rest old new : List Submission} {last : Nat}
    (hs : s.pending = old ++ new) (hne : old ≠ []) (hdue : ∀ p ∈ old, p.due ≤ last)
    (hsel : s.select = some (sub, rest)) (hpassed : ∀ x ∈ old, x.requester ≠ sub.requester) : s.turn < last := by
  obtain ⟨p, ps, rfl⟩ := List.exists_cons_of_ne_nil hne
  by_contra hlate
  have hoverdue : p.due ≤ s.turn := (hdue p List.mem_cons_self).trans (not_lt.mp hlate)
  have hfirst : some (sub, rest) = some (p, ps ++ new) :=
    hsel.symm.trans (State.select_oldest_overdue hs hoverdue)
  cases hfirst
  exact hpassed sub List.mem_cons_self rfl

/-- R156: while requests `old`, all due by the turn `last`, stand before every other, a step brings their end closer. It
serves one of them, as it must once the turn is `last`, or it counts a turn before that. -/
theorem step_progress {s : State} {old new : List Submission} {last : Nat} (hs : s.pending = old ++ new)
    (hne : old ≠ []) (hdue : ∀ p ∈ old, p.due ≤ last) :
    ∃ (t : State) (old' new' : List Submission), step s = .next t ∧ t.pending = old' ++ new' ∧ old' ⊆ old ∧
      last - t.turn + old'.length < last - s.turn + old.length ∧
      ∀ r : Nat, answersTo r s ++ owedTo r old <+: answersTo r t ++ owedTo r old' := by
  obtain ⟨t, sub, before, after, hstep, hsel, hsplit, hbefore, hpending, hturn, hanswers⟩ :=
    step_serves (s := s) (by simp [hs, hne])
  rcases append_cons_place (hsplit.symm.trans hs) with ⟨old', rfl, rfl⟩ | ⟨new', rfl⟩
  · refine ⟨t, before ++ old', new, hstep, by simp [hpending],
      ((List.sublist_cons_self sub old').append_left before).subset, ?_, fun r => ?_⟩
    · simp only [hturn, List.length_append, List.length_cons]
      omega
    · rw [hanswers, List.append_assoc, owedTo_oldest_first r old' hbefore]
  · have hearly : s.turn < last :=
      State.turn_lt_of_passed_over hs hne hdue hsel fun x hx => hbefore x (List.mem_append_left _ hx)
    refine ⟨t, old, new' ++ after, hstep, by simp [hpending], List.Subset.refl _, by omega, fun r => ?_⟩
    rw [hanswers]
    split
    · next hr =>
      have hnone : owedTo r old = [] := owedTo_eq_nil fun x hx => hr ▸ hbefore x (List.mem_append_left _ hx)
      simp [hnone]
    · simp

/-- R156: what is issued meanwhile joins the queue behind the requests `old`, so that enough steps answer them. -/
theorem runEvents_answers_old (last : Nat) (es : List HostEvent) (s : State) (old new : List Submission)
    (hs : s.pending = old ++ new) (hdue : ∀ p ∈ old, p.due ≤ last) (hes : withoutReset es)
    (hcount : last - s.turn + old.length ≤ es.count .serve) :
    ∃ t : State, runEvents es s = .next t ∧ ∀ r : Nat, answersTo r s ++ owedTo r old <+: answersTo r t := by
  induction es generalizing s old new with
  | nil =>
    obtain rfl : old = [] := List.length_eq_zero_iff.mp (by rw [List.count_nil] at hcount; omega)
    exact ⟨s, rfl, by simp⟩
  | cons e es ih =>
    obtain ⟨hreset, htail⟩ : HostEvent.reset ≠ e ∧ withoutReset es := by simpa [withoutReset] using hes
    cases e with
    | reset => exact absurd rfl hreset
    | issue r q =>
      exact ih (s.issue r q) old (new ++ [⟨r, q, s.turn + Config.patience s.turn⟩]) (by simp [hs]) hdue htail
        (by simpa using hcount)
    | serve =>
      by_cases hne : old = []
      · obtain ⟨t, hrun, hprefix⟩ := runEvents_delivered_prefix (.serve :: es) s
        exact ⟨t, hrun, fun r => by simpa [hne] using answersTo_prefix hprefix⟩
      · obtain ⟨u, old', new', hstep, hpending, hsub, hless, hgrows⟩ := step_progress hs hne hdue
        rw [List.count_cons_self] at hcount
        obtain ⟨t, hrun, hall⟩ := ih u old' new' hpending (fun p hp => hdue p (hsub hp)) htail (by omega)
        exact ⟨t, by simp only [runEvents, onEvent, hstep, hrun], fun r => (hgrows r).trans (hall r)⟩

/-- Settles O51: the steps of `run_pending_length`, and `runEvents_answers_old` for the whole queue. -/
theorem everyPendingRequestIsAnswered : Obligations.EveryPendingRequestIsAnswered := by
  refine ⟨fun s => ?_, fun s last es hdue hes hcount => ?_⟩
  · simpa only [promised_eq] using run_pending_length s.pending.length s rfl
  · obtain ⟨t, hrun, hall⟩ := runEvents_answers_old last es s s.pending [] (by simp) hdue hes hcount
    refine ⟨t, hrun, fun r => ?_⟩
    obtain ⟨later, hlater⟩ := hall r
    exact ⟨later, by rw [promised_eq, hlater]⟩

end Sys2Proof.Machine

/-! The statements of 20_memory.md: what a requester has received followed by what it is owed is kept by every step and grows
by the answers of its own requests only, whatever the interleaving (R35). -/

namespace Sys2Proof.Machine

/-! ### What each event does to the promise -/

/-- A step only moves an answer from what its requester is owed to what it has received (R35). -/
theorem step_promised (s : State) : ∃ t : State, step s = .next t ∧ ∀ r : Nat, promised r t = promised r s := by
  by_cases h : s.pending = []
  · exact ⟨s, step_of_pending_nil h, fun _ => rfl⟩
  · obtain ⟨t, sub, before, after, hstep, -, hsplit, hbefore, hpending, -, hanswers⟩ := step_serves h
    refine ⟨t, hstep, fun r => ?_⟩
    rw [promised_eq, promised_eq, hanswers, hpending, hsplit, List.append_assoc, owedTo_oldest_first r after hbefore]

/-- Settles O48, by `step_promised`. -/
theorem stepKeepsThePromise : Obligations.StepKeepsThePromise := by
  rintro requester _ s t rfl hstep
  obtain ⟨u, hu, hkept⟩ := step_promised s
  obtain rfl : u = t := by simpa using hu.symm.trans hstep
  exact hkept requester

/-- A request issued is owed its answer after all that its requester was promised before, and others are owed nothing more. -/
theorem promised_issue (r' : Nat) (q : Request) (s : State) (r : Nat) :
    promised r (s.issue r' q) = promised r s ++ if r' = r then [answerRequest q] else [] := by
  have hanswers : answersTo r (s.issue r' q) = answersTo r s := rfl
  simp [promised_eq, hanswers]

/-- A reset leaves what was received and takes back what was owed (R150, log 4). -/
theorem promised_resetEvent (s : State) (r : Nat) : promised r s.resetEvent = answersTo r s := by
  rw [promised_eq, State.resetEvent_pending, owedTo_nil, List.append_nil]
  rfl

theorem answersTo_prefix_promised (r : Nat) (s : State) : answersTo r s <+: promised r s :=
  List.prefix_append _ _

/-! ### Runs of events -/

theorem issuedBy_issue (r r' : Nat) (q : Request) : issuedBy r [.issue r' q] = if r' = r then [q] else [] := rfl

theorem issuedBy_cons (r : Nat) (e : HostEvent) (es : List HostEvent) :
    issuedBy r (e :: es) = issuedBy r [e] ++ issuedBy r es := by
  cases e with
  | issue r' q => by_cases h : r' = r <;> simp [issuedBy, h]
  | reset => rfl
  | serve => rfl

/-- An event adds the answer of the request it issues, if any, to what is promised; a reset alone takes answers away. -/
theorem onEvent_promised (e : HostEvent) (s : State) :
    ∃ t : State, onEvent e s = .next t ∧ ∀ r : Nat,
      (e ≠ .reset → promised r t = promised r s ++ (issuedBy r [e]).map answerRequest) ∧
      (promised r t).Sublist (promised r s ++ (issuedBy r [e]).map answerRequest) := by
  cases e with
  | issue r' q =>
    refine ⟨s.issue r' q, rfl, fun r => ?_⟩
    have hgrows : promised r (s.issue r' q) = promised r s ++ (issuedBy r [.issue r' q]).map answerRequest := by
      rw [promised_issue, issuedBy_issue]
      split <;> rfl
    exact ⟨fun _ => hgrows, hgrows ▸ List.Sublist.refl _⟩
  | reset =>
    refine ⟨s.resetEvent, rfl, fun r => ⟨fun h => absurd rfl h, ?_⟩⟩
    rw [promised_resetEvent]
    exact (answersTo_prefix_promised r s).sublist.trans (List.sublist_append_left _ _)
  | serve =>
    obtain ⟨t, hstep, hkept⟩ := step_promised s
    refine ⟨t, hstep, fun r => ?_⟩
    have hsame : promised r t = promised r s ++ (issuedBy r [.serve]).map answerRequest := by
      simp [hkept, issuedBy]
    exact ⟨fun _ => hsame, hsame ▸ List.Sublist.refl _⟩

/-- R35 with what is still owed counted in, so that it can be carried along a run: `onEvent_promised` for every event. -/
theorem runEvents_promised (es : List HostEvent) (s : State) :
    ∃ t : State, runEvents es s = .next t ∧ ∀ r : Nat,
      (withoutReset es → promised r t = promised r s ++ (issuedBy r es).map answerRequest) ∧
      (promised r t).Sublist (promised r s ++ (issuedBy r es).map answerRequest) := by
  induction es generalizing s with
  | nil => exact ⟨s, rfl, by simp [issuedBy]⟩
  | cons e es ih =>
    obtain ⟨u, hu, hevent⟩ := onEvent_promised e s
    obtain ⟨t, ht, hrun⟩ := ih u
    refine ⟨t, by simp only [runEvents, hu, ht], fun r => ?_⟩
    obtain ⟨hexact, hsub⟩ := hevent r
    obtain ⟨hexact', hsub'⟩ := hrun r
    rw [issuedBy_cons, List.map_append, ← List.append_assoc]
    refine ⟨fun hes => ?_, hsub'.trans (hsub.append_right _)⟩
    obtain ⟨hreset, htail⟩ : HostEvent.reset ≠ e ∧ withoutReset es := by simpa [withoutReset] using hes
    rw [hexact' htail, hexact hreset.symm]

/-- Settles O50: what was received is the first part of what `runEvents_promised` speaks of. -/
theorem requestersAnsweredInOrder : Obligations.RequestersAnsweredInOrder := by
  intro es s
  obtain ⟨t, hrun, hall⟩ := runEvents_promised es s
  refine ⟨t, hrun, fun r => ?_⟩
  obtain ⟨hexact, hsub⟩ := hall r
  exact ⟨hexact, (answersTo_prefix_promised r t).sublist.trans hsub⟩

end Sys2Proof.Machine

/-! The statements of 30_encoding.md about the words: the fields of a command word as numbers (R41, R44), the decoder and the
encoder (R42, R43, R45, R46), and which requests are answered `IllegalCommand`. -/

namespace Sys2Proof.Machine

/-! ### The fields of a command word, as numbers -/

theorem opField_toNat (cw : CommandWord) : (opField cw).toNat = opOf cw := by
  simp [opField, opOf, BitVec.extractLsb'_toNat]

theorem immField_toNat (cw : CommandWord) : (immField cw).toNat = cw.toNat / 16 % 64 := by
  simp [immField, BitVec.extractLsb'_toNat, Nat.shiftRight_eq_div_pow]

theorem rsvField_toNat (cw : CommandWord) : (rsvField cw).toNat = rsvOf cw := by
  have hcw := cw.isLt
  simp only [rsvField, rsvOf, BitVec.extractLsb'_toNat, Nat.shiftRight_eq_div_pow]
  omega

/-- R44: the six bits read as a signed number, bit by bit and by arithmetic. -/
theorem immValue_immField (cw : CommandWord) : immValue (immField cw) = immOf cw := by
  have himm := immField_toNat cw
  simp only [immValue, immOf, BitVec.toInt_eq_toNat_cond, himm]
  split_ifs <;> omega

theorem rsvField_eq_zero_iff (cw : CommandWord) : rsvField cw = 0#6 ↔ rsvOf cw = 0 := by
  rw [← BitVec.toNat_inj, rsvField_toNat, BitVec.toNat_zero]

theorem immField_eq_zero_iff (cw : CommandWord) : immField cw = 0#6 ↔ cw.toNat / 16 % 64 = 0 := by
  rw [← BitVec.toNat_inj, immField_toNat, BitVec.toNat_zero]

theorem immOf_eq_zero_iff (cw : CommandWord) : immOf cw = 0 ↔ cw.toNat / 16 % 64 = 0 := by
  unfold immOf
  split_ifs <;> omega

/-- R41: `RSV ++ IMM6 ++ OP` with `RSV = 0`, as a number. -/
theorem commandWord_toNat (imm : Imm6) (op : BitVec 4) : (commandWord imm op).toNat = 16 * imm.toNat + op.toNat := by
  have himm : 16 * imm.toNat + op.toNat = imm.toNat <<< 4 ||| op.toNat := by
    rw [← Nat.shiftLeft_add_eq_or_of_lt op.isLt, Nat.shiftLeft_eq]
    omega
  show BitVec.toNat (w := 6 + 6 + 4) ((0#6 ++ imm) ++ op) = _
  rw [BitVec.toNat_append, BitVec.toNat_append, BitVec.toNat_zero, Nat.zero_shiftLeft, Nat.zero_or, himm]

/-- A command word without reserved bits is put together from its immediate and its opcode. -/
theorem commandWord_fields {cw : CommandWord} (h : rsvField cw = 0#6) : commandWord (immField cw) (opField cw) = cw := by
  have hrsv : cw.toNat / 1024 = 0 := (rsvField_eq_zero_iff cw).mp h
  apply BitVec.eq_of_toNat_eq
  rw [commandWord_toNat, immField_toNat, opField_toNat, opOf]
  omega

/-! ### The decoder -/

theorem requireNoImmediate_eq_ok_iff {imm : Imm6} {i j : Instr} :
    requireNoImmediate imm i = .ok j ↔ imm = 0#6 ∧ i = j := by
  by_cases h : imm = 0#6 <;> simp [requireNoImmediate, h]

theorem requireNoImmediate_eq_error_iff {imm : Imm6} {i : Instr} :
    (∃ e, requireNoImmediate imm i = .error e) ↔ imm ≠ 0#6 := by
  by_cases h : imm = 0#6 <;> simp [requireNoImmediate, h]

@[simp] theorem encode_cw (i : Instr) : (encode i).cw = commandWord i.immediate i.opcode := by
  cases i <;> rfl

/-- R44: what the immediate of an encoded instruction reads as. -/
theorem immOf_encode (i : Instr) : immOf (encode i).cw = immValue i.immediate := by
  rw [← immValue_immField, encode_cw, Laws.immField_commandWord]

theorem rsvOf_encode (i : Instr) : rsvOf (encode i).cw = 0 := by
  rw [← rsvField_eq_zero_iff, encode_cw, Laws.rsvField_commandWord]

theorem opOf_encode (i : Instr) : opOf (encode i).cw = i.opcode.toNat := by
  rw [← opField_toNat, encode_cw, Laws.opField_commandWord]

/-- Whether a request has the fields that `decode` reads for `i`: the command word of `i`, and its operands as far as the
format of `i` reads them (R42, R46). -/
def readsAs (q : Request) (i : Instr) : Prop :=
  q.cw = (encode i).cw ∧ q.a = (encode i).a ∧
    (i.format.readsB = true → q.b = (encode i).b) ∧ (i.format.readsC = true → q.c = (encode i).c)

theorem decode_of_readsAs {q : Request} {i : Instr} (h : readsAs q i) : decode q = .ok i := by
  obtain ⟨hcw, ha, hb, hc⟩ := h
  simp only [decode, hcw, encode_cw, Laws.rsvField_commandWord, Laws.opField_commandWord, Laws.immField_commandWord, ha]
  cases i with
  | sel => rw [hb rfl, hc rfl]; rfl
  | rhsum | fpmul => rw [hb rfl]; rfl
  | maskz | masknz | rdivpot | srmulpot | expr | expn | rcp1px => rfl

theorem readsAs_of_fields {q : Request} {i : Instr} (hrsv : rsvField q.cw = 0#6)
    (hop : (opField q.cw).toNat = i.opcode.toNat) (himm : immField q.cw = i.immediate) (ha : q.a = (encode i).a)
    (hb : i.format.readsB = true → q.b = (encode i).b) (hc : i.format.readsC = true → q.c = (encode i).c) :
    readsAs q i := by
  refine ⟨?_, ha, hb, hc⟩
  rw [encode_cw, ← himm, ← BitVec.eq_of_toNat_eq hop, commandWord_fields hrsv]

theorem readsAs_of_decode {q : Request} {i : Instr} (h : decode q = .ok i) : readsAs q i := by
  unfold decode at h
  split at h
  · cases h
  next hrsv =>
  rw [not_not] at hrsv
  split at h <;> simp only [requireNoImmediate_eq_ok_iff, Except.ok.injEq, reduceCtorEq] at h
  case h_1 hop => obtain ⟨himm, rfl⟩ := h; exact readsAs_of_fields hrsv hop himm rfl nofun nofun
  case h_2 hop => obtain ⟨himm, rfl⟩ := h; exact readsAs_of_fields hrsv hop himm rfl nofun nofun
  case h_3 hop => obtain ⟨himm, rfl⟩ := h; exact readsAs_of_fields hrsv hop himm rfl (fun _ => rfl) (fun _ => rfl)
  case h_4 hop => subst h; exact readsAs_of_fields hrsv hop rfl rfl nofun nofun
  case h_5 hop => subst h; exact readsAs_of_fields hrsv hop rfl rfl nofun nofun
  case h_6 hop => obtain ⟨himm, rfl⟩ := h; exact readsAs_of_fields hrsv hop himm rfl (fun _ => rfl) nofun
  case h_7 hop => obtain ⟨himm, rfl⟩ := h; exact readsAs_of_fields hrsv hop himm rfl (fun _ => rfl) nofun
  case h_8 hop => obtain ⟨himm, rfl⟩ := h; exact readsAs_of_fields hrsv hop himm rfl nofun nofun
  case h_9 hop => subst h; exact readsAs_of_fields hrsv hop rfl rfl nofun nofun
  case h_10 hop => obtain ⟨himm, rfl⟩ := h; exact readsAs_of_fields hrsv hop himm rfl nofun nofun

theorem decode_eq_ok_iff {q : Request} {i : Instr} : decode q = .ok i ↔ readsAs q i :=
  ⟨readsAs_of_decode, decode_of_readsAs⟩

theorem readsAs_encode (i : Instr) : readsAs (encode i) i := ⟨rfl, rfl, fun _ => rfl, fun _ => rfl⟩

/-- Settles O1: `encode i` has the fields that are read for `i`, and `decode_eq_ok_iff` is the second clause. -/
theorem decodeInvertsEncode : Obligations.DecodeInvertsEncode :=
  ⟨fun i => decode_of_readsAs (readsAs_encode i), fun _ _ => decode_eq_ok_iff⟩

/-- R45: a word is malformed in the three cases of the rule, in terms of the word as a number. -/
theorem decode_eq_error_iff (q : Request) :
    (∃ e, decode q = .error e) ↔ q.cw.toNat / 1024 ≠ 0 ∨ 10 ≤ q.cw.toNat % 16 ∨
      (q.cw.toNat % 16 ∈ [0, 1, 2, 5, 6, 7, 9] ∧ q.cw.toNat / 16 % 64 ≠ 0) := by
  rw [← rsvOf, ← opOf, ← opField_toNat]
  simp only [ne_eq, ← rsvField_eq_zero_iff, ← immField_eq_zero_iff]
  unfold decode
  split
  · next hrsv => simp [hrsv]
  · next hrsv =>
    split
    case h_11 =>
      simp only [imp_false] at *
      have hop : 10 ≤ (opField q.cw).toNat := by omega
      simp [hop]
    all_goals next hop => simp [hop, hrsv, requireNoImmediate_eq_error_iff]

theorem answerOf_ne_illegalCommand {check : Option Violation} (h : check ≠ some .illegalCommand) (r : Word) :
    answerOf check r ≠ .fault .illegalCommand := by
  cases check with
  | none => simp
  | some v => simpa using h

/-- No check of R132 after decoding gives `IllegalCommand`. -/
theorem answerInstr_ne_illegalCommand (i : Instr) : answerInstr i ≠ .fault .illegalCommand := by
  cases i with
  | maskz | masknz | sel | rhsum | fpmul => exact nofun
  | rdivpot => exact answerOf_ne_illegalCommand (by unfold rdivpotCheck; split <;> simp) _
  | srmulpot => exact answerOf_ne_illegalCommand (by unfold srmulpotCheck; split <;> simp) _
  | expr => exact answerOf_ne_illegalCommand (by unfold exprCheck; split <;> simp) _
  | expn => exact answerOf_ne_illegalCommand (by unfold expnCheck; split_ifs <;> simp) _
  | rcp1px => exact answerOf_ne_illegalCommand (by unfold rcp1pxCheck; split <;> simp) _

theorem answerRequest_eq_illegalCommand_iff (q : Request) :
    answerRequest q = .fault .illegalCommand ↔ ∃ e, decode q = .error e := by
  cases hd : decode q with
  | error e => simp [answerRequest_of_decode_error hd]
  | ok i => simp [answerRequest_of_decode_ok hd, answerInstr_ne_illegalCommand]

/-- Settles O4: only a word that does not decode is answered so. -/
theorem illegalCommandInExactlyThreeCases : Obligations.IllegalCommandInExactlyThreeCases := fun q =>
  (answerRequest_eq_illegalCommand_iff q).trans (decode_eq_error_iff q)

/-- A request's answer depends on what it decodes to and not on why it does not. -/
theorem answerRequest_congr {q q' : Request} (h : ∀ i, decode q = .ok i ↔ decode q' = .ok i) :
    answerRequest q = answerRequest q' := by
  cases hd : decode q with
  | ok i => rw [answerRequest_of_decode_ok hd, answerRequest_of_decode_ok ((h i).mp hd)]
  | error e =>
    cases hd' : decode q' with
    | ok i => simp [(h i).mpr hd'] at hd
    | error e' => rw [answerRequest_of_decode_error hd, answerRequest_of_decode_error hd']

/-- R46: operand fields that no instruction of the word's opcode reads do not change the answer. -/
theorem answerRequest_unread {cw : CommandWord} {b c b' c' : Word} (a : Word)
    (h : ∀ i : Instr, i.opcode.toNat = cw.toNat % 16 →
      (i.format.readsB = true → b = b') ∧ (i.format.readsC = true → c = c')) :
    answerRequest ⟨cw, a, b, c⟩ = answerRequest ⟨cw, a, b', c'⟩ := by
  refine answerRequest_congr fun i => ?_
  rw [decode_eq_ok_iff, decode_eq_ok_iff]
  refine and_congr_right fun hcw => and_congr_right fun _ => ?_
  have hop : i.opcode.toNat = cw.toNat % 16 := by rw [← opOf_encode, ← hcw, opOf]
  obtain ⟨hb, hc⟩ := h i hop
  exact and_congr (forall_congr' fun hr => by rw [hb hr]) (forall_congr' fun hr => by rw [hc hr])

/-- The opcodes of the formats `U` and `UI` (R43). -/
theorem reads_only_A {i : Instr} (h : i.opcode.toNat ∈ [0, 1, 3, 4, 7, 8, 9]) :
    ¬i.format.readsB = true ∧ ¬i.format.readsC = true := by
  cases i with
  | sel | rhsum | fpmul => simp [Instr.opcode] at h
  | maskz | masknz | rdivpot | srmulpot | expr | expn | rcp1px => exact ⟨nofun, nofun⟩

/-- The opcodes of the format `B` (R43). -/
theorem reads_no_C {i : Instr} (h : i.opcode.toNat ∈ [5, 6]) : ¬i.format.readsC = true := by
  cases i with
  | rhsum | fpmul => exact nofun
  | sel | maskz | masknz | rdivpot | srmulpot | expr | expn | rcp1px => simp [Instr.opcode] at h

/-- Settles O7: no instruction with one of these opcodes reads the fields changed. -/
theorem unreadOperandsAreIgnored : Obligations.UnreadOperandsAreIgnored := by
  refine fun cw a b c b' c' =>
    ⟨fun hop => answerRequest_unread a fun i hi => ?_, fun hop => answerRequest_unread a fun i hi => ?_⟩
  · obtain ⟨hb, hc⟩ := reads_only_A (hi ▸ hop)
    exact ⟨fun h => absurd h hb, fun h => absurd h hc⟩
  · exact ⟨fun _ => rfl, fun h => absurd h (reads_no_C (hi ▸ hop))⟩

/-! ### The command words -/

/-- Settles O2: the opcode in the lowest four bits and the immediate above it. -/
theorem encodedCommandWords : Obligations.EncodedCommandWords := by
  intro a b c imm
  simp [commandWord_toNat, Instr.immediate, Instr.opcode, Nat.add_comm]

/-- Settles O3, by running the decoder on the eight words. -/
theorem sampleWordsDecode : Obligations.SampleWordsDecode := by
  unfold Obligations.SampleWordsDecode
  decide

/-- Settles O9: a word that does not decode is answered by raising `IllegalCommand`. -/
theorem stepAnswersAnIllegalWord : Obligations.StepAnswersAnIllegalWord := by
  intro s sub rest e hsel hdec
  rw [step_of_select hsel, answerRequest_of_decode_error hdec]
  exact ⟨_, rfl⟩

end Sys2Proof.Machine

/-! What the statements of 30_encoding.md rest on in 41_pot_scaling.md and 42_fp_mult.md: rounding over the integers, and
`RDIVPOT`, `SRMULPOT`, `RHSUM` and `FPMUL` as the integer formulas they compute. -/

namespace Sys2Proof.Machine

/-! ### Rounding over the integers -/

/-- R70: rounding to nearest with ties away from zero, by the quotient and the remainder; a negative number rounds up only
above the half. -/
theorem roundAway_eq (n : Int) {d : Int} (hd : 0 < d) :
    roundAway n d = n / d + if d < 2 * (n % d) + (if n < 0 then 0 else 1) then 1 else 0 := by
  have hlo := Int.emod_nonneg n hd.ne'
  have hhi := Int.emod_lt_of_pos n hd
  have hn := Int.mul_ediv_add_emod n d
  unfold roundAway
  by_cases hneg : n < 0
  · rw [if_neg (by omega), if_pos hneg, neg_eq_iff_eq_neg, Int.ediv_eq_iff_of_pos (by omega)]
    split <;> constructor <;> linarith
  · rw [if_pos (by omega), if_neg hneg, Int.ediv_eq_iff_of_pos (by omega)]
    split <;> constructor <;> linarith

/-- R72: the error of rounding to nearest is at most half the divisor. -/
theorem abs_two_mul_roundAway_sub_le (n : Int) {d : Int} (hd : 0 < d) : |2 * (roundAway n d * d - n)| ≤ d := by
  have hn := Int.mul_ediv_add_emod n d
  have hlo := Int.emod_nonneg n hd.ne'
  have hhi := Int.emod_lt_of_pos n hd
  rw [roundAway_eq n hd, abs_le]
  by_cases hneg : n < 0
  · rw [if_pos hneg]
    split <;> constructor <;> linarith
  · rw [if_neg hneg]
    split <;> constructor <;> linarith

/-- A quotient by a positive integer, rounded, lies between zero and the dividend. -/
theorem roundAway_between (n : Int) {d : Int} (hd : 0 < d) : min n 0 ≤ roundAway n d ∧ roundAway n d ≤ max n 0 := by
  have hround : ∀ m : Int, 0 ≤ m → 0 ≤ (2 * m + d) / (2 * d) ∧ (2 * m + d) / (2 * d) < m + 1 := fun m hm =>
    ⟨Int.ediv_nonneg (by omega) (by omega), Int.ediv_lt_of_lt_mul (by omega) (by nlinarith)⟩
  unfold roundAway
  split
  · next hn =>
    have hn' := hround n hn
    omega
  · next hn =>
    have hn' := hround (-n) (by omega)
    omega

/-! ### Masks -/

/-- R8, R70: the low bits of a word are the remainder of the integer it stands for, negative ones included. -/
theorem and32_mask_toInt (x : Word) {mask : Word} {e : Nat} (he : e ≤ 31) (hmask : mask.toInt = 2 ^ e - 1) :
    (and32 x mask).toInt = x.toInt % 2 ^ e := by
  have hpow : 2 ^ e ≤ 2 ^ 31 := Nat.pow_le_pow_right (by norm_num) he
  have hpos : 0 < 2 ^ e := Nat.two_pow_pos e
  have hnat : mask.toNat = 2 ^ e - 1 := by
    have hcast : ((2 ^ e : Nat) : Int) = 2 ^ e := by push_cast; rfl
    rw [BitVec.toInt_eq_toNat_cond] at hmask
    split at hmask <;> omega
  have hand : (and32 x mask).toNat = x.toNat % 2 ^ e := by
    rw [and32, BitVec.toNat_and, hnat, Nat.and_two_pow_sub_one_eq_mod]
  have hlt : x.toNat % 2 ^ e < 2 ^ e := Nat.mod_lt _ hpos
  have hdvd : (2 : Int) ^ e ∣ (2 ^ 32 : Nat) := by exact_mod_cast pow_dvd_pow 2 (by omega : e ≤ 32)
  rw [BitVec.toInt_eq_toNat_of_lt (by omega), hand, BitVec.toInt_eq_toNat_bmod, ← Int.emod_emod_of_dvd _ hdvd,
    Int.bmod_emod, Int.emod_emod_of_dvd _ hdvd]
  push_cast
  rfl

/-! ### `RDIVPOT`, `SRMULPOT`, `RHSUM` -/

theorem rdivpotZ_bounds (x : Word) (e : Nat) :
    -2147483648 ≤ rdivpotZ x.toInt e ∧ rdivpotZ x.toInt e ≤ 2147483647 := by
  have hd : (0 : Int) < 2 ^ e := by positivity
  have hx := toInt_bounds x
  have hbetween := roundAway_between x.toInt hd
  rw [rdivpotZ]
  omega

/-- R70: the threshold of the bit-level form is the half of the divisor, for either sign. -/
theorem rdivpot_threshold (e : Nat) (n : Int) :
    n % 2 ^ e > asr (2 ^ e - 1) 1 + (if n < 0 then 1 else 0) ↔
      2 ^ e < 2 * (n % 2 ^ e) + (if n < 0 then 0 else 1) := by
  unfold asr
  cases e with
  | zero => split <;> omega
  | succ e =>
    rw [pow_succ]
    split <;> omega

/-- R71: the bit-level form of `RDIVPOT` rounds to nearest, ties away from zero. -/
theorem rdivpot_toInt (x : Word) {e : Nat} (he : e ≤ 31) : (rdivpot x e).toInt = rdivpotZ x.toInt e := by
  have hd : (0 : Int) < 2 ^ e := by positivity
  have hle : (2 : Int) ^ e ≤ 2 ^ 31 := pow_le_pow_right₀ (by norm_num) he
  have hmask : (wrap32 (2 ^ e - 1)).toInt = 2 ^ e - 1 := wrap32_toInt (by omega) (by omega)
  obtain ⟨hlo, hhi⟩ := rdivpotZ_bounds x e
  have hform : rdivpot x e = wrap32 (rdivpotZ x.toInt e) := by
    simp only [rdivpot, and32_mask_toInt x he hmask, hmask, rdivpot_threshold, rdivpotZ, roundAway_eq _ hd]
    rfl
  rw [hform, wrap32_toInt hlo hhi]

theorem sat32_of_mem {n : Int} (hlo : -2147483648 ≤ n) (hhi : n ≤ 2147483647) : sat32 n = n := by
  unfold sat32
  split_ifs <;> omega

/-- R74: below the threshold the left shift is exact, and beyond it the exact product is out of range. -/
theorem srmulpot_toInt_of_nonneg (x : Word) {e : Nat} (he : e ≤ 31) :
    (srmulpot x e).toInt = sat32 (x.toInt * 2 ^ e) := by
  have hP : (0 : Int) < 2 ^ e := by positivity
  have hPQ : (2 : Int) ^ (31 - e) * 2 ^ e = 2147483648 := by
    rw [← pow_add, Nat.sub_add_cancel he]
    norm_num
  simp only [srmulpot, if_neg (by omega : ¬((e : Int) < 0)), Int.toNat_natCast]
  split_ifs with hover hunder
  · have hbig : 2147483648 ≤ x.toInt * 2 ^ e := hPQ ▸ mul_le_mul_of_nonneg_right (by omega) hP.le
    rw [sat32, if_pos (by omega), int32Max_toInt]
  · have hsmall : x.toInt * 2 ^ e ≤ -2147483648 := by
      rw [← hPQ, ← neg_mul]
      exact mul_le_mul_of_nonneg_right (by omega) hP.le
    have hsat : sat32 (x.toInt * 2 ^ e) = -2147483648 := by
      unfold sat32
      split_ifs <;> omega
    rw [hsat, int32Min_toInt]
  · have habs : |x.toInt| * 2 ^ e ≤ (2 ^ (31 - e) - 1) * 2 ^ e :=
      mul_le_mul_of_nonneg_right (abs_le.mpr ⟨by omega, by omega⟩) hP.le
    rw [sub_mul, hPQ, one_mul, ← abs_of_pos hP, ← abs_mul, abs_of_pos hP] at habs
    obtain ⟨hlo, hhi⟩ := abs_le.mp habs
    rw [sat32_of_mem (by omega) (by omega)]
    exact wrap32_toInt (by omega) (by omega)

/-- R74: the closed form of `SRMULPOT` for every legal exponent. -/
theorem srmulpot_toInt (x : Word) {e : Int} (hlo : -31 ≤ e) (hhi : e ≤ 31) :
    (srmulpot x e).toInt = srmulpotZ x.toInt e := by
  by_cases he : e < 0
  · rw [srmulpot, if_pos he, rdivpot_toInt x (by omega), srmulpotZ, if_neg (by omega)]
  · lift e to Nat using by omega
    rw [srmulpot_toInt_of_nonneg x (by omega), srmulpotZ, if_pos (by omega), Int.toNat_natCast]

/-- R76: `RHSUM` rounds half the exact sum. -/
theorem rhsum_toInt (a b : Word) : (rhsum a b).toInt = rhsumZ a.toInt b.toInt := by
  have ha := toInt_bounds a
  have hb := toInt_bounds b
  have hform : tdiv (a.toInt + b.toInt + if a.toInt + b.toInt ≥ 0 then 1 else -1) 2 = rhsumZ a.toInt b.toInt := by
    unfold tdiv rhsumZ roundAway
    split_ifs <;> omega
  obtain ⟨hlo, hhi⟩ : -2147483648 ≤ rhsumZ a.toInt b.toInt ∧ rhsumZ a.toInt b.toInt ≤ 2147483647 := by
    unfold rhsumZ roundAway
    split_ifs <;> omega
  simp only [rhsum, hform]
  exact wrap32_toInt hlo hhi

/-! ### `FPMUL` -/

theorem roundUp_two_pow_31 (n : Int) : roundUp n (2 ^ 31) = (n + 2 ^ 30) / 2 ^ 31 := by
  unfold roundUp
  omega

/-- R86: but for the pair of two minima, `FPMUL` rounds the exact product to nearest, ties upward. -/
theorem fpmul_toInt_roundUp {x y : Word} (h : ¬(x.toInt = -2 ^ 31 ∧ y.toInt = -2 ^ 31)) :
    (fpmul x y).toInt = roundUp (x.toInt * y.toInt) (2 ^ 31) := by
  rw [fpmul_toInt h, roundUp_two_pow_31]

/-- R85, R86: with the pair of two minima, `FPMUL` is the rounded product clamped. -/
theorem fpmul_toInt_eq_fpmulZ (x y : Word) : (fpmul x y).toInt = fpmulZ x.toInt y.toInt := by
  by_cases h : x.toInt = -2 ^ 31 ∧ y.toInt = -2 ^ 31
  · obtain ⟨hx, hy⟩ := h
    have hx' : x = int32Min := word_eq_of_toInt hx
    have hy' : y = int32Min := word_eq_of_toInt hy
    rw [hx', hy']
    decide
  · obtain ⟨hlo, hhi⟩ := toInt_bounds (fpmul x y)
    rw [fpmul_toInt_roundUp h] at *
    rw [fpmulZ, sat32_of_mem hlo hhi]

end Sys2Proof.Machine

/-! What the statements of 30_encoding.md rest on in 43_exp.md and 44_reciprocal.md: `EXPR`, `EXPN` and `RCP1PX` wrap nowhere
on their domains, and so compute their integer formulas (R98 (a), R108 (a), R118 (a)). -/

namespace Sys2Proof.Machine

/-! ### Products within bounds -/

/-- A rounded quotient by `2^31`, with its error. -/
theorem roundUp_error (n : Int) : ∃ r : Int, |r| ≤ 2 ^ 30 ∧ 2 ^ 31 * roundUp n (2 ^ 31) = n + r :=
  ⟨_, by rw [roundUp_two_pow_31, abs_le]; omega, (add_sub_cancel _ _).symm⟩

theorem abs_mul_le_mul {x y X Y : Int} (hx : |x| ≤ X) (hy : |y| ≤ Y) : |x * y| ≤ X * Y := by
  rw [abs_mul]
  exact mul_le_mul hx hy (abs_nonneg y) ((abs_nonneg x).trans hx)

theorem abs_roundUp_le {n B : Int} (h : |n| ≤ B * 2 ^ 31) : |roundUp n (2 ^ 31)| ≤ B := by
  rw [abs_le, roundUp_two_pow_31] at *
  omega

/-- A product of a word that is not the least one is rounded, and bounded when its factors are. -/
theorem fpmul_toInt_of_abs_le {x y : Word} {X Y B : Int} (hx : |x.toInt| ≤ X) (hy : |y.toInt| ≤ Y)
    (hX : X < 2 ^ 31) (hB : X * Y ≤ B * 2 ^ 31) :
    (fpmul x y).toInt = roundUp (x.toInt * y.toInt) (2 ^ 31) ∧ |(fpmul x y).toInt| ≤ B := by
  have hxlo := neg_le_of_abs_le hx
  have heq : (fpmul x y).toInt = roundUp (x.toInt * y.toInt) (2 ^ 31) := fpmul_toInt_roundUp (by omega)
  exact ⟨heq, heq ▸ abs_roundUp_le ((abs_mul_le_mul hx hy).trans hB)⟩

/-- A sum within bounds does not wrap. -/
theorem add32_toInt_of_abs_le {x y : Word} {X Y : Int} (hx : |x.toInt| ≤ X) (hy : |y.toInt| ≤ Y)
    (hXY : X + Y < 2 ^ 31) : (add32 x y).toInt = x.toInt + y.toInt ∧ |(add32 x y).toInt| ≤ X + Y := by
  have hsum : |x.toInt + y.toInt| ≤ X + Y := (abs_add_le _ _).trans (add_le_add hx hy)
  obtain ⟨hlo, hhi⟩ := abs_le.mp hsum
  have heq : (add32 x y).toInt = x.toInt + y.toInt := add32_toInt (by omega) (by omega)
  exact ⟨heq, heq ▸ hsum⟩

/-! ### `EXPR` -/

theorem expC_toInt : expC.toInt = 1895147668 := by decide
theorem oneThird_toInt : oneThird.toInt = 715827883 := by decide
theorem q0OneEighth_toInt : q0OneEighth.toInt = 2 ^ 28 := by decide

theorem srmulpot_neg_one_toInt (x : Word) : (srmulpot x (-1)).toInt = roundAway x.toInt 2 :=
  srmulpot_toInt x (by norm_num) (by norm_num)

theorem srmulpot_neg_two_toInt (x : Word) : (srmulpot x (-2)).toInt = roundAway x.toInt 4 :=
  srmulpot_toInt x (by norm_num) (by norm_num)

/-- R98 (a): on its domain `EXPR` wraps nowhere, each intermediate being bounded by the powers of 1/8 it stands for. -/
theorem expr_toInt {a : Word} (hlo : -2 ^ 29 ≤ a.toInt) (hhi : a.toInt ≤ -1) : (expr a).toInt = exprZ a.toInt := by
  let x := add32 a q0OneEighth
  let x2 := fpmul x x
  let x3 := fpmul x2 x
  let x4 := fpmul x2 x2
  let x4q := srmulpot x4 (-2)
  let t := add32 (fpmul (add32 x4q x3) oneThird) x2
  let p := srmulpot t (-1)
  have hx : x.toInt = a.toInt + 2 ^ 28 := by
    rw [← q0OneEighth_toInt]
    exact add32_toInt (by rw [q0OneEighth_toInt]; omega) (by rw [q0OneEighth_toInt]; omega)
  have bx : |x.toInt| ≤ 2 ^ 28 := abs_le.mpr (by omega)
  obtain ⟨hx2, bx2⟩ : x2.toInt = _ ∧ |x2.toInt| ≤ 2 ^ 25 := fpmul_toInt_of_abs_le bx bx (by norm_num) (by norm_num)
  obtain ⟨hx3, bx3⟩ : x3.toInt = _ ∧ |x3.toInt| ≤ 2 ^ 22 := fpmul_toInt_of_abs_le bx2 bx (by norm_num) (by norm_num)
  obtain ⟨hx4, bx4⟩ : x4.toInt = _ ∧ |x4.toInt| ≤ 2 ^ 19 := fpmul_toInt_of_abs_le bx2 bx2 (by norm_num) (by norm_num)
  have hx4q : x4q.toInt = roundAway x4.toInt 4 := srmulpot_neg_two_toInt x4
  have bx4q : |x4q.toInt| ≤ 2 ^ 17 := by
    rw [abs_le] at *
    rw [hx4q, roundAway]
    split <;> omega
  obtain ⟨hs, bs⟩ := add32_toInt_of_abs_le bx4q bx3 (by norm_num)
  have bthird : |oneThird.toInt| ≤ 715827883 := by decide
  obtain ⟨hm, bm⟩ := fpmul_toInt_of_abs_le (B := 1441793) bs bthird (by norm_num) (by norm_num)
  obtain ⟨ht, bt⟩ : t.toInt = _ ∧ |t.toInt| ≤ _ := add32_toInt_of_abs_le bm bx2 (by norm_num)
  have hp : p.toInt = roundAway t.toInt 2 := srmulpot_neg_one_toInt t
  have bp : |p.toInt| ≤ 17498113 := by
    rw [abs_le] at *
    rw [hp, roundAway]
    split <;> omega
  obtain ⟨hxp, bxp⟩ := add32_toInt_of_abs_le bx bp (by norm_num)
  have bC : |expC.toInt| ≤ 1895147668 := by decide
  obtain ⟨hz, bz⟩ := fpmul_toInt_of_abs_le (B := 252335979) bC bxp (by norm_num) (by norm_num)
  obtain ⟨hr, -⟩ := add32_toInt_of_abs_le bC bz (by norm_num)
  calc (expr a).toInt = (add32 expC (fpmul expC (add32 x p))).toInt := rfl
    _ = exprZ a.toInt := by
      rw [hr, hz, hxp, hp, ht, hm, hs, hx4q, hx4, hx3, hx2, hx, expC_toInt, oneThird_toInt]
      rfl

/-! ### `EXPN` -/

/-- R102: the number of quarters that the reduction removes from a negative argument in format `Qk`. -/
def quartersZ (a : Int) (k : Nat) : Int := (-a - 1) / 2 ^ (29 - k)

theorem quartersZ_nonneg {a : Int} (k : Nat) (ha : a < 0) : 0 ≤ quartersZ a k :=
  Int.ediv_nonneg (by omega) (by positivity)

/-- Removing the quarters leaves the argument between minus one quarter and zero. -/
theorem add_quartersZ_mul (a : Int) (k : Nat) :
    a + quartersZ a k * 2 ^ (29 - k) = a % 2 ^ (29 - k) - 2 ^ (29 - k) := by
  have hq : (0 : Int) < 2 ^ (29 - k) := by positivity
  have hdiv := Int.mul_ediv_add_emod a (2 ^ (29 - k))
  have hlo := Int.emod_nonneg a hq.ne'
  have hhi := Int.emod_lt_of_pos a hq
  have hm : quartersZ a k = -(a / 2 ^ (29 - k)) - 1 := by
    rw [quartersZ, Int.ediv_eq_iff_of_pos hq]
    constructor <;> linarith
  rw [hm]
  linarith

theorem add_quartersZ_mul_bounds (a : Int) (k : Nat) :
    -2 ^ (29 - k) ≤ a + quartersZ a k * 2 ^ (29 - k) ∧ a + quartersZ a k * 2 ^ (29 - k) ≤ -1 := by
  have hq : (0 : Int) < 2 ^ (29 - k) := by positivity
  have hlo := Int.emod_nonneg a hq.ne'
  have hhi := Int.emod_lt_of_pos a hq
  rw [add_quartersZ_mul]
  omega

theorem two_pow_quarter_le (k : Nat) : (2 : Int) ^ (29 - k) ≤ 2 ^ 29 :=
  pow_le_pow_right₀ (by norm_num) (by omega)

/-- R102: masking and subtracting a quarter removes the quarters. -/
theorem expnReduced_toInt (a : Word) (k : Nat) :
    (expnReduced a k).toInt = a.toInt + quartersZ a.toInt k * 2 ^ (29 - k) := by
  have hq : (0 : Int) < 2 ^ (29 - k) := by positivity
  have hq' := two_pow_quarter_le k
  have hexp : 31 - k - 2 = 29 - k := by omega
  have hquarter : (wrap32 (2 ^ (29 - k))).toInt = 2 ^ (29 - k) := wrap32_toInt (by omega) (by omega)
  have hone : (1 : Word).toInt = 1 := by decide
  have hmask : (sub32 (wrap32 (2 ^ (29 - k))) 1).toInt = 2 ^ (29 - k) - 1 := by
    rw [sub32_toInt] <;> omega
  have hand := and32_mask_toInt a (by omega) hmask
  have hlo := Int.emod_nonneg a.toInt hq.ne'
  have hhi := Int.emod_lt_of_pos a.toInt hq
  rw [add_quartersZ_mul, expnReduced, hexp, sub32_toInt] <;> omega

theorem two_pow_quarter_mul {k : Nat} (hk : k ≤ 29) : (2 : Int) ^ (29 - k) * 2 ^ k = 2 ^ 29 := by
  rw [← pow_add, Nat.sub_add_cancel hk]

/-- R102: the reduced argument, brought to `Q0`, is in the domain of `EXPR`. -/
theorem quartersZ_q0_bounds (a : Int) {k : Nat} (hk : k ≤ 29) :
    -2 ^ 29 ≤ (a + quartersZ a k * 2 ^ (29 - k)) * 2 ^ k ∧ (a + quartersZ a k * 2 ^ (29 - k)) * 2 ^ k ≤ -1 := by
  obtain ⟨hlo, hhi⟩ := add_quartersZ_mul_bounds a k
  have hP : (1 : Int) ≤ 2 ^ k := one_le_pow₀ (by norm_num)
  rw [← two_pow_quarter_mul hk, ← neg_mul]
  exact ⟨mul_le_mul_of_nonneg_right hlo (by omega), by nlinarith⟩

/-- R102: bringing the reduced argument to `Q0` does not saturate. -/
theorem srmulpot_expnReduced_toInt (a : Word) {k : Nat} (hk : k ≤ 29) :
    (srmulpot (expnReduced a k) k).toInt = (a.toInt + quartersZ a.toInt k * 2 ^ (29 - k)) * 2 ^ k := by
  obtain ⟨hlo, hhi⟩ := quartersZ_q0_bounds a.toInt hk
  rw [srmulpot_toInt_of_nonneg _ (by omega), expnReduced_toInt, sat32_of_mem (by omega) (by omega)]

/-- R102: what the reduction removes is the number of quarters, shifted to its place in format `Qk`. -/
theorem expn_removed_toNat {a : Word} (k : Nat) (ha : a.toInt < 0) :
    (sub32 (expnReduced a k) a).toNat = (quartersZ a.toInt k).toNat * 2 ^ (29 - k) := by
  have hm := quartersZ_nonneg k ha
  obtain ⟨-, hhi⟩ := add_quartersZ_mul_bounds a.toInt k
  have hmq : 0 ≤ quartersZ a.toInt k * 2 ^ (29 - k) := by positivity
  have hbounds := toInt_bounds a
  have hred := expnReduced_toInt a k
  have hint : (sub32 (expnReduced a k) a).toInt = quartersZ a.toInt k * 2 ^ (29 - k) := by
    rw [sub32_toInt] <;> omega
  lift quartersZ a.toInt k to Nat using hm with m
  rw [BitVec.toInt_eq_toNat_cond] at hint
  rw [Int.toNat_natCast]
  zify
  split at hint <;> omega

/-- R103: the rungs from the `j`-th on, with these multipliers; the exponent of rung `j` is `j − 2`. -/
def rungsFrom : Nat → List Int → List (Int × Word)
  | _, [] => []
  | j, mult :: rest => ((j : Int) - 2, wrap32 mult) :: rungsFrom (j + 1) rest

theorem ladder_eq_rungsFrom : ladder = rungsFrom 0 multipliersZ := rfl

/-- R104: the bit of `rem` that a rung looks at is the bit of the number of quarters, whose place is the rung's. -/
theorem removed_bit_eq {rem : Word} {k m : Nat} (hk : k ≤ 29) (hrem : rem.toNat = m * 2 ^ (29 - k)) (j : Nat) :
    rem.getLsbD (31 - (k : Int) + ((j : Int) - 2)).toNat = decide (m / 2 ^ j % 2 = 1) := by
  have hplace : (31 - (k : Int) + ((j : Int) - 2)).toNat = 29 - k + j := by omega
  rw [hplace, BitVec.getLsbD, hrem, Nat.testBit_mul_two_pow, Nat.add_sub_cancel_left, Nat.testBit_eq_decide_div_mod_eq]
  simp

theorem ladderStep_toInt {rem : Word} {k m : Nat} (hk : k ≤ 29) (hrem : rem.toNat = m * 2 ^ (29 - k)) (j : Nat)
    (r : Word) {mult : Int} (hmult : 0 ≤ mult ∧ mult < 2 ^ 31) :
    (ladderStep k rem r ((j : Int) - 2, wrap32 mult)).toInt =
      if j < k + 2 ∧ m / 2 ^ j % 2 = 1 then roundUp (r.toInt * mult) (2 ^ 31) else r.toInt := by
  have hw : (wrap32 mult).toInt = mult := wrap32_toInt (by omega) (by omega)
  have hguard : (k : Int) > (j : Int) - 2 ↔ j < k + 2 := by omega
  simp only [ladderStep, removed_bit_eq hk hrem, decide_eq_true_eq, hguard]
  split
  · rw [fpmul_toInt_roundUp (by omega), hw]
  · rfl

/-- R100, R104: the ladder, rung by rung. -/
theorem foldl_ladderStep_toInt {rem : Word} {k m : Nat} (hk : k ≤ 29) (hrem : rem.toNat = m * 2 ^ (29 - k))
    (mults : List Int) (hmults : ∀ mult ∈ mults, 0 ≤ mult ∧ mult < 2 ^ 31) (j : Nat) (r : Word) :
    ((rungsFrom j mults).foldl (ladderStep k rem) r).toInt = ladderZ k m j mults r.toInt := by
  induction mults generalizing j r with
  | nil => rfl
  | cons mult rest ih =>
    obtain ⟨hmult, hrest⟩ := List.forall_mem_cons.mp hmults
    rw [rungsFrom, List.foldl_cons, ih hrest, ladderStep_toInt hk hrem j r hmult, ladderZ]

/-- R105: the threshold of the clamp is the real −32 in format `Qk`. -/
theorem clamp_iff (a : Int) {k : Nat} (hk : k ≤ 29) : a < -2 ^ (36 - k) ↔ a * 2 ^ k < -(2 ^ 36) := by
  have hP : (0 : Int) < 2 ^ k := by positivity
  have hpow : (2 : Int) ^ (36 - k) * 2 ^ k = 2 ^ 36 := by rw [← pow_add, Nat.sub_add_cancel (by omega)]
  rw [← hpow, ← neg_mul]
  exact (mul_lt_mul_iff_left₀ hP).symm

theorem multipliersZ_bounds : ∀ mult ∈ multipliersZ, 0 ≤ mult ∧ mult < 2 ^ 31 := by decide

/-- R108 (a): in contract, `EXPN` goes quarter by quarter as over unbounded integers. -/
theorem expn_toInt {a : Word} {k : Nat} (hk : k ≤ 29) (ha : a.toInt ≤ 0) : (expn a k).toInt = expnZ a.toInt k := by
  by_cases h0 : a.toInt = 0
  · simp only [expn, expnZ, if_pos h0, int32Max_toInt]
  · by_cases hclamp : k > 5 ∧ a.toInt * 2 ^ k < -(2 ^ 36)
    · simp only [expn, expnZ, if_neg h0, clamp_iff _ hk, if_pos hclamp]
      rfl
    · obtain ⟨hlo, hhi⟩ := quartersZ_q0_bounds a.toInt hk
      have hq0 := srmulpot_expnReduced_toInt a hk
      rw [← hq0] at hlo hhi
      simp only [expn, expnZ, if_neg h0, clamp_iff _ hk, if_neg hclamp]
      rw [ladder_eq_rungsFrom, foldl_ladderStep_toInt hk (expn_removed_toNat k (by omega)) _ multipliersZ_bounds,
        expr_toInt hlo hhi, hq0, quartersZ]

/-! ### `RCP1PX` -/

theorem q2One_toInt : q2One.toInt = 2 ^ 29 := by decide
theorem c48Over17_toInt : c48Over17.toInt = 1515870810 := by decide
theorem cNeg32Over17_toInt : cNeg32Over17.toInt = -1010580540 := by decide

theorem srmulpot_one_toInt (x : Word) : (srmulpot x 1).toInt = sat32 (2 * x.toInt) := by
  rw [srmulpot_toInt x (by norm_num) (by norm_num), srmulpotZ, if_pos (by norm_num), Int.toNat_one, pow_one, mul_comm]

theorem srmulpot_two_toInt (x : Word) : (srmulpot x 2).toInt = sat32 (4 * x.toInt) := by
  rw [srmulpot_toInt x (by norm_num) (by norm_num), srmulpotZ, if_pos (by norm_num), mul_comm]
  rfl

/-- `x`, a raw of `Q2`, is the reciprocal of `hd`, a raw of `Q0`, to one part in sixteen. -/
def nearReciprocal (hd x : Int) : Prop := |2 ^ 60 - hd * x| ≤ 2 ^ 56

theorem abs_le_of_nearReciprocal {hd x : Int} (hhd : 2 ^ 30 ≤ hd) (h : nearReciprocal hd x) :
    |x| ≤ 2 ^ 30 + 2 ^ 26 := by
  obtain ⟨hlo, hhi⟩ := abs_le.mp h
  exact abs_le.mpr ⟨by nlinarith, by nlinarith⟩

/-- The residual `1 - hd * x` of a Newton iteration is the square of the one before it, up to its two roundings. -/
theorem newtonZ_residual (hd x : Int) : ∃ r r' : Int, |r| ≤ 2 ^ 30 ∧ |r'| ≤ 2 ^ 30 ∧
    2 ^ 60 * (2 ^ 60 - hd * newtonZ hd x) = (2 ^ 60 - hd * x) ^ 2 + hd * x * r - 2 ^ 31 * (hd * r') := by
  obtain ⟨r, hr, heq⟩ := roundUp_error (hd * x)
  obtain ⟨r', hr', heq'⟩ := roundUp_error (x * (2 ^ 29 - roundUp (hd * x) (2 ^ 31)))
  refine ⟨r, r', hr, hr', ?_⟩
  rw [newtonZ]
  linear_combination (-(2 ^ 31 * hd)) * heq' + hd * x * heq

/-- R118 (a): a Newton iteration keeps the estimate near the reciprocal. -/
theorem newtonZ_nearReciprocal {hd x : Int} (hlo : 2 ^ 30 ≤ hd) (hhi : hd < 2 ^ 31) (h : nearReciprocal hd x) :
    nearReciprocal hd (newtonZ hd x) := by
  obtain ⟨r, r', hr, hr', hres⟩ := newtonZ_residual hd x
  have hsq : (2 ^ 60 - hd * x) ^ 2 ≤ (2 ^ 56) ^ 2 := sq_le_sq' (neg_le_of_abs_le h) (le_of_abs_le h)
  have hhdx : |hd * x| ≤ 2 ^ 60 + 2 ^ 56 := by
    obtain ⟨hl, hu⟩ := abs_le.mp h
    exact abs_le.mpr ⟨by omega, by omega⟩
  obtain ⟨hl, hu⟩ := abs_le.mp (abs_mul_le_mul hhdx hr)
  obtain ⟨hl', hu'⟩ := abs_le.mp (abs_mul_le_mul (abs_le.mpr ⟨by omega, hhi.le⟩ : |hd| ≤ 2 ^ 31) hr')
  have hsq0 := sq_nonneg (2 ^ 60 - hd * x)
  exact abs_le.mpr ⟨by linarith, by linarith⟩

/-- R118 (a): near the reciprocal, a Newton iteration neither wraps nor saturates. -/
theorem newtonStep_toInt {hd x : Word} (hlo : 2 ^ 30 ≤ hd.toInt) (h : nearReciprocal hd.toInt x.toInt) :
    (newtonStep hd x).toInt = newtonZ hd.toInt x.toInt := by
  have bx := abs_le_of_nearReciprocal hlo h
  have hhx : (fpmul hd x).toInt = roundUp (hd.toInt * x.toInt) (2 ^ 31) := fpmul_toInt_roundUp (by omega)
  have bom : |q2One.toInt - (fpmul hd x).toInt| ≤ 2 ^ 25 + 1 := by
    rw [nearReciprocal, abs_le] at h
    rw [hhx, roundUp_two_pow_31, q2One_toInt, abs_le]
    omega
  have hom : (sub32 q2One (fpmul hd x)).toInt = q2One.toInt - (fpmul hd x).toInt := by
    obtain ⟨hl, hu⟩ := abs_le.mp bom
    exact sub32_toInt (by omega) (by omega)
  obtain ⟨hy, hyb⟩ := fpmul_toInt_of_abs_le (B := 2 ^ 25) bx (hom ▸ bom) (by norm_num) (by norm_num)
  have hd' : (srmulpot (fpmul x (sub32 q2One (fpmul hd x))) 2).toInt =
      4 * (fpmul x (sub32 q2One (fpmul hd x))).toInt := by
    rw [abs_le] at hyb
    rw [srmulpot_two_toInt, sat32_of_mem (by omega) (by omega)]
  have bd : |(srmulpot (fpmul x (sub32 q2One (fpmul hd x))) 2).toInt| ≤ 2 ^ 27 := by
    rw [abs_le] at *
    omega
  rw [newtonStep, (add32_toInt_of_abs_le bx bd (by norm_num)).1, hd', hy, hom, hhx, q2One_toInt, newtonZ]

theorem halfDenominator_toInt (a : Word) : (halfDenominator a).toInt = rhsumZ a.toInt 2147483647 := rhsum_toInt a q0One

/-- For a non-negative operand, `(a + 1)/2` lies in `[1/2, 1)`. -/
theorem halfDenominator_bounds {a : Int} (h0 : 0 ≤ a) (h : a ≤ 2147483647) :
    2 ^ 30 ≤ rhsumZ a 2147483647 ∧ rhsumZ a 2147483647 < 2 ^ 31 := by
  rw [rhsumZ, roundAway, if_pos (by omega)]
  omega

/-- The linear seed of R115 over the integers. -/
def seedZ (hd : Int) : Int := 1515870810 + roundUp (hd * -1010580540) (2 ^ 31)

theorem reciprocalSeed_toInt {hd : Word} (hlo : 2 ^ 30 ≤ hd.toInt) : (reciprocalSeed hd).toInt = seedZ hd.toInt := by
  have hhi := toInt_bounds hd
  have hz : (fpmul hd cNeg32Over17).toInt = roundUp (hd.toInt * -1010580540) (2 ^ 31) := by
    rw [fpmul_toInt_roundUp (by omega), cNeg32Over17_toInt]
  have hround := roundUp_two_pow_31 (hd.toInt * -1010580540)
  rw [reciprocalSeed, seedZ, add32_toInt, hz, c48Over17_toInt] <;> rw [hz, c48Over17_toInt] <;> omega

/-- The seed is near the reciprocal: `48/17 - 32/17 * hd` errs most at the ends and in the middle, by one part in 17. -/
theorem seedZ_nearReciprocal {hd : Int} (hlo : 2 ^ 30 ≤ hd) (hhi : hd < 2 ^ 31) : nearReciprocal hd (seedZ hd) := by
  obtain ⟨r, hr, heq⟩ := roundUp_error (hd * -1010580540)
  have hres : 2 ^ 31 * (2 ^ 60 - hd * seedZ hd) =
      2 ^ 91 - 2 ^ 31 * 1515870810 * hd + 1010580540 * (hd * hd) - hd * r := by
    rw [seedZ]
    linear_combination (-hd) * heq
  have hends : 0 ≤ (hd - 2 ^ 30) * (2 ^ 31 - hd) := mul_nonneg (by omega) (by omega)
  have hmiddle : 0 ≤ (hd - 3 * 2 ^ 29) * (hd - 3 * 2 ^ 29) := mul_self_nonneg _
  obtain ⟨hl, hu⟩ := abs_le.mp (abs_mul_le_mul (abs_le.mpr ⟨by omega, hhi.le⟩ : |hd| ≤ 2 ^ 31) hr)
  exact abs_le.mpr ⟨by nlinarith, by nlinarith⟩

theorem newton_toInt {hd : Word} (hlo : 2 ^ 30 ≤ hd.toInt) (n : Nat) {x : Word}
    (h : nearReciprocal hd.toInt x.toInt) : (newton hd n x).toInt = (newtonZ hd.toInt)^[n] x.toInt := by
  have hhi := (toInt_bounds hd).2
  induction n generalizing x with
  | zero => rfl
  | succ n ih =>
    have hstep := newtonStep_toInt hlo h
    rw [newton, Function.iterate_succ_apply, ← hstep]
    exact ih (hstep ▸ newtonZ_nearReciprocal hlo (by omega) h)

theorem rcp1pxZ_eq (a : Int) :
    rcp1pxZ a = sat32 (2 * (newtonZ (rhsumZ a 2147483647))^[3] (seedZ (rhsumZ a 2147483647))) := by
  simp only [rcp1pxZ, seedZ, Function.iterate_succ_apply, Function.iterate_zero_apply]

/-- R118 (a): on its domain only the last doubling of `RCP1PX` can saturate. -/
theorem rcp1px_toInt {a : Word} (h : 0 ≤ a.toInt) : (rcp1px a).toInt = rcp1pxZ a.toInt := by
  have hhd := halfDenominator_toInt a
  obtain ⟨hlo, hhi⟩ := halfDenominator_bounds h (toInt_bounds a).2
  rw [← hhd] at hlo hhi
  have hseed := reciprocalSeed_toInt hlo
  rw [rcp1px, srmulpot_one_toInt, newton_toInt hlo 3 (hseed ▸ seedZ_nearReciprocal hlo hhi), hseed, hhd, rcp1pxZ_eq]

end Sys2Proof.Machine

/-! The procedure of R50: the answer of every request is the one that its integer form gives. -/

namespace Sys2Proof.Machine

/-! ### The answer of each command over the integers -/

theorem ok_eq_okZ {r : Word} {n : Int} (h : r.toInt = n) : Answer.ok r = okZ n := by
  rw [okZ, ← h, BitVec.ofInt_toInt]

theorem immValue_bounds (imm : Imm6) : -32 ≤ immValue imm ∧ immValue imm ≤ 31 := by
  have hlo := BitVec.le_toInt imm
  have hhi := BitVec.toInt_lt (x := imm)
  norm_num at hlo hhi
  exact ⟨hlo, by unfold immValue; omega⟩

theorem answerOf_fault_if {c : Prop} [Decidable c] (v : Violation) {r : Word} {n : Int} (h : ¬c → r.toInt = n) :
    answerOf (if c then some v else none) r = if c then .fault v else okZ n := by
  split
  · rfl
  · next hc => exact ok_eq_okZ (h hc)

theorem answerOf_none_if {c : Prop} [Decidable c] (v : Violation) {r : Word} {n : Int} (h : c → r.toInt = n) :
    answerOf (if c then none else some v) r = if c then okZ n else .fault v := by
  split
  · next hc => exact ok_eq_okZ (h hc)
  · rfl

theorem answerInstr_maskz_overZ (a : Word) : answerInstr (.maskz a) = okZ (if a.toInt = 0 then -1 else 0) := by
  rw [answerInstr, maskz]
  split <;> rfl

theorem answerInstr_masknz_overZ (a : Word) : answerInstr (.masknz a) = okZ (if a.toInt = 0 then 0 else -1) := by
  rw [answerInstr, masknz, maskz]
  split <;> rfl

theorem answerInstr_rdivpot_overZ (x : Word) (e : Imm6) : answerInstr (.rdivpot x e) =
    if immValue e < 0 then .fault .invalidExponent else okZ (rdivpotZ x.toInt (immValue e).toNat) := by
  have he := immValue_bounds e
  exact answerOf_fault_if _ fun _ => rdivpot_toInt x (by omega)

theorem answerInstr_srmulpot_overZ (x : Word) (e : Imm6) : answerInstr (.srmulpot x e) =
    if immValue e = -32 then .fault .invalidExponent else okZ (srmulpotZ x.toInt (immValue e)) := by
  have he := immValue_bounds e
  exact answerOf_fault_if _ fun _ => srmulpot_toInt x (by omega) (by omega)

theorem answerInstr_expr_overZ (a : Word) : answerInstr (.expr a) =
    if -2 ^ 29 ≤ a.toInt ∧ a.toInt ≤ -1 then okZ (exprZ a.toInt) else .fault .outOfDomain :=
  answerOf_none_if _ fun ⟨hlo, hhi⟩ => expr_toInt hlo hhi

theorem answerInstr_expn_overZ (a : Word) (k : Imm6) : answerInstr (.expn a k) =
    if immValue k < 0 ∨ immValue k > 29 then .fault .invalidFormat
    else if a.toInt > 0 then .fault .outOfDomain else okZ (expnZ a.toInt (immValue k).toNat) := by
  rw [answerInstr, expnCheck]
  split
  · rfl
  · exact answerOf_fault_if _ fun _ => expn_toInt (by omega) (by omega)

theorem answerInstr_rcp1px_overZ (a : Word) : answerInstr (.rcp1px a) =
    if a.toInt < 0 then .fault .outOfDomain else okZ (rcp1pxZ a.toInt) :=
  answerOf_fault_if _ fun h => rcp1px_toInt (not_lt.mp h)

/-! ### The procedure -/

/-- R50: a word that decodes passes the checks of the word, and its command answers as its line of the procedure. -/
theorem answerInstr_eq_answerZ {q : Request} {i : Instr} (h : readsAs q i) : answerInstr i = answerZ q := by
  obtain ⟨hcw, ha, hb, hc⟩ := h
  simp only [answerZ, hcw, ha, rsvOf_encode, opOf_encode, immOf_encode]
  cases i with
  | maskz a => exact answerInstr_maskz_overZ a
  | masknz a => exact answerInstr_masknz_overZ a
  | sel mask thenVal elseVal => rw [hb rfl, hc rfl]; rfl
  | rdivpot x e => exact answerInstr_rdivpot_overZ x e
  | srmulpot x e => exact answerInstr_srmulpot_overZ x e
  | rhsum a b => rw [hb rfl]; exact ok_eq_okZ (rhsum_toInt a b)
  | fpmul a b => rw [hb rfl]; exact ok_eq_okZ (fpmul_toInt_eq_fpmulZ a b)
  | expr a => exact answerInstr_expr_overZ a
  | expn a k => exact answerInstr_expn_overZ a k
  | rcp1px a => exact answerInstr_rcp1px_overZ a

/-- R45, R50: a word that does not decode fails a check of the word, whichever line of the procedure it comes to. -/
theorem answerZ_of_decode_error {q : Request} (h : ∃ e, decode q = .error e) : answerZ q = .fault .illegalCommand := by
  have hcases : rsvOf q.cw ≠ 0 ∨ 10 ≤ opOf q.cw ∨ opOf q.cw ∈ [0, 1, 2, 5, 6, 7, 9] ∧ immOf q.cw ≠ 0 := by
    rw [ne_eq (immOf q.cw), immOf_eq_zero_iff]
    exact (decode_eq_error_iff q).mp h
  simp only [List.mem_cons, List.not_mem_nil, or_false] at hcases
  unfold answerZ
  refine ite_eq_iff'.mpr ⟨fun _ => rfl, fun hrsv => ?_⟩
  refine ite_eq_iff'.mpr ⟨fun _ => if_pos (by omega), fun _ => ?_⟩
  refine ite_eq_iff'.mpr ⟨fun _ => if_pos (by omega), fun _ => ?_⟩
  refine ite_eq_iff'.mpr ⟨fun _ => if_pos (by omega), fun _ => ?_⟩
  refine ite_eq_iff'.mpr ⟨fun _ => by omega, fun _ => ?_⟩
  refine ite_eq_iff'.mpr ⟨fun _ => by omega, fun _ => ?_⟩
  refine ite_eq_iff'.mpr ⟨fun _ => if_pos (by omega), fun _ => ?_⟩
  refine ite_eq_iff'.mpr ⟨fun _ => if_pos (by omega), fun _ => ?_⟩
  refine ite_eq_iff'.mpr ⟨fun _ => if_pos (by omega), fun _ => ?_⟩
  refine ite_eq_iff'.mpr ⟨fun _ => by omega, fun _ => ?_⟩
  exact ite_eq_iff'.mpr ⟨fun _ => if_pos (by omega), fun _ => rfl⟩

/-- Settles O5: a request that decodes to `i` is answered as `i`, and one that does not is answered `IllegalCommand`. -/
theorem requestsAnsweredByTheProcedure : Obligations.RequestsAnsweredByTheProcedure := by
  intro q
  cases hd : decode q with
  | ok i => rw [answerRequest_of_decode_ok hd, answerInstr_eq_answerZ (readsAs_of_decode hd)]
  | error e => rw [answerRequest_of_decode_error hd, answerZ_of_decode_error ⟨e, hd⟩]

end Sys2Proof.Machine

/-! The statements of 30_encoding.md about lines of a host program (R52) and pseudo-instructions (R53). -/

namespace Sys2Proof.Machine

/-! ### Assembling and running lines -/

/-- An operand keeps its value when another name is given a result. -/
theorem AsmOperand.value_bindResult {x : AsmOperand} {name : List Char} (h : x ≠ .temp name) (answer : Answer)
    (temps : Temps) : x.value (bindResult (some name) answer temps) = x.value temps := by
  cases x with
  | temp other => exact bindResult_lookup_ne (fun hn => h (congrArg AsmOperand.temp hn)) answer temps
  | decimal | hexadecimal | int32Min | int32Max => rfl

/-- A decimal literal in the `i32` range stands for its number. -/
theorem AsmOperand.value_decimal (temps : Temps) {n : Int} (hlo : -2 ^ 31 ≤ n) (hhi : n < 2 ^ 31) :
    (AsmOperand.decimal n).value temps = some (BitVec.ofInt 32 n) :=
  if_pos ⟨hlo, hhi⟩

theorem AsmLine.assemble_U {temps : Temps} {m : Mnemonic} {x : AsmOperand} {a : Word} (dst : Option (List Char))
    (hm : m.format = .U) (hx : x.value temps = some a) :
    AsmLine.assemble temps ⟨dst, m, [x], none⟩ = some ⟨commandWord 0#6 m.opcode, a, 0, 0⟩ := by
  simp [AsmLine.assemble, hm, hx]

theorem AsmLine.assemble_T {temps : Temps} {m : Mnemonic} {x y z : AsmOperand} {a b c : Word}
    (dst : Option (List Char)) (hm : m.format = .T) (hx : x.value temps = some a) (hy : y.value temps = some b)
    (hz : z.value temps = some c) :
    AsmLine.assemble temps ⟨dst, m, [x, y, z], none⟩ = some ⟨commandWord 0#6 m.opcode, a, b, c⟩ := by
  simp [AsmLine.assemble, hm, hx, hy, hz]

theorem AsmLine.assemble_UI {temps : Temps} {m : Mnemonic} {x : AsmOperand} {a : Word} {n : Int}
    (dst : Option (List Char)) (hm : m.format = .UI) (hx : x.value temps = some a) (hlo : -32 ≤ n) (hhi : n ≤ 31) :
    AsmLine.assemble temps ⟨dst, m, [x], some n⟩ = some ⟨commandWord (BitVec.ofInt 6 n) m.opcode, a, 0, 0⟩ := by
  simp [AsmLine.assemble, hm, hx, asmImmediate, hlo, hhi]

/-- R44: the immediate field of a line reads as the number written. -/
theorem immValue_ofInt {n : Int} (hlo : -32 ≤ n) (hhi : n ≤ 31) : immValue (BitVec.ofInt 6 n) = n := by
  rw [immValue, BitVec.toInt_ofInt, Int.bmod_eq_of_le] <;> norm_num <;> omega

/-- A line is answered first, and the rest of the program runs with its result named. -/
theorem runProgram_cons {temps : Temps} {l : AsmLine} {ls : List AsmLine} {q : Request} {answers : List Answer}
    (hq : l.assemble temps = some q)
    (hls : runProgram (bindResult l.dst (answerRequest q) temps) ls = some answers) :
    runProgram temps (l :: ls) = some (answerRequest q :: answers) := by
  simp [runProgram, hq, hls]

theorem runProgram_single {temps : Temps} {l : AsmLine} {q : Request} (hq : l.assemble temps = some q) :
    runProgram temps [l] = some [answerRequest q] :=
  runProgram_cons hq rfl

theorem answerRequest_encode (i : Instr) : answerRequest (encode i) = answerInstr i :=
  answerRequest_of_decode_ok (decode_of_readsAs (readsAs_encode i))

/-- Settles O57: each text parses to its line, which assembles to the request. -/
theorem assemblerExamples : Obligations.AssemblerExamples := by
  have hsrmulpot : parseLine "%t1 = SRMULPOT %t0, -2" =
      some ⟨some ['t', '1'], .srmulpot, [.temp ['t', '0']], some (-2)⟩ := by decide
  have hexpn : parseLine "%t2 = EXPN -67108864, 5" =
      some ⟨some ['t', '2'], .expn, [.decimal (-67108864)], some 5⟩ := by decide
  refine ⟨by decide, fun x => ?_, ?_, by decide⟩
  · have hx : (AsmOperand.temp ['t', '0']).value [(['t', '0'], x)] = some x := by simp [AsmOperand.value]
    rw [hsrmulpot, Option.bind_some, AsmLine.assemble_UI _ rfl hx (by norm_num) (by norm_num)]
    rfl
  · have hx : (AsmOperand.decimal (-67108864)).value [] = some (BitVec.ofInt 32 (-67108864)) :=
      AsmOperand.value_decimal [] (by norm_num) (by norm_num)
    rw [hexpn, Option.bind_some, AsmLine.assemble_UI _ rfl hx (by norm_num) (by norm_num)]
    rfl

/-! ### `SELZ`, `SELNZ` -/

theorem toInt_eq_zero_iff (a : Word) : a.toInt = 0 ↔ a = 0#32 :=
  ⟨fun h => word_eq_of_toInt h, fun h => by rw [h]; rfl⟩

theorem sel_allOnes (t e : Word) : sel allOnes t e = t := by
  have hones : allOnes = BitVec.allOnes 32 := by decide
  simp only [sel, or32, and32, not32, hones, BitVec.allOnes_and, BitVec.not_allOnes, BitVec.zero_and, BitVec.or_zero]

theorem sel_allZeros (t e : Word) : sel allZeros t e = e := by
  simp only [sel, or32, and32, not32, allZeros, BitVec.not_zero, BitVec.allOnes_and, BitVec.zero_and, BitVec.zero_or]

/-- R63: a mask of `MASKZ` selects `t` for zero. -/
theorem sel_maskz (a t e : Word) : sel (maskz a) t e = if a = 0#32 then t else e := by
  simp only [maskz, toInt_eq_zero_iff]
  split
  · exact sel_allOnes t e
  · exact sel_allZeros t e

theorem not32_allOnes : not32 allOnes = allZeros := by decide
theorem not32_allZeros : not32 allZeros = allOnes := by decide

/-- R63: a mask of `MASKNZ` selects `e` for zero. -/
theorem sel_masknz (a t e : Word) : sel (masknz a) t e = if a ≠ 0#32 then t else e := by
  simp only [masknz, maskz, toInt_eq_zero_iff, ne_eq, ite_not]
  split
  · rw [not32_allOnes, sel_allZeros]
  · rw [not32_allZeros, sel_allOnes]

/-- A mask command whose result is named, then `SEL` by that name (R53). -/
theorem runProgram_mask_sel {temps : Temps} {m : Mnemonic} {i : Instr} {mask : List Char} {a t e : AsmOperand}
    {va vt ve vm : Word} (dst : Option (List Char)) (hm : m.format = .U)
    (hi : encode i = ⟨commandWord 0#6 m.opcode, va, 0, 0⟩) (hvm : answerInstr i = .ok vm)
    (ha : a.value temps = some va) (ht : t.value temps = some vt) (he : e.value temps = some ve)
    (htm : t ≠ .temp mask) (hem : e ≠ .temp mask) :
    runProgram temps [⟨some mask, m, [a], none⟩, ⟨dst, .sel, [.temp mask, t, e], none⟩] =
      some [.ok vm, .ok (sel vm vt ve)] := by
  have hmask : answerRequest ⟨commandWord 0#6 m.opcode, va, 0, 0⟩ = .ok vm := by
    rw [← hi, answerRequest_encode, hvm]
  have hsel : answerRequest ⟨commandWord 0#6 2#4, vm, vt, ve⟩ = .ok (sel vm vt ve) :=
    answerRequest_encode (.sel vm vt ve)
  have hrest : AsmLine.assemble (bindResult (some mask) (.ok vm) temps) ⟨dst, .sel, [.temp mask, t, e], none⟩ =
      some ⟨commandWord 0#6 2#4, vm, vt, ve⟩ :=
    AsmLine.assemble_T dst rfl (bindResult_ok_lookup_self mask vm temps)
      ((AsmOperand.value_bindResult htm _ _).trans ht) ((AsmOperand.value_bindResult hem _ _).trans he)
  rw [← hmask, ← hsel]
  exact runProgram_cons (AsmLine.assemble_U _ hm ha) (runProgram_single (hmask ▸ hrest))

/-- Settles O58: both expansions are of the form of `runProgram_mask_sel`. -/
theorem selzAndSelnzSelect : Obligations.SelzAndSelnzSelect := by
  intro temps dst mask a t e va vt ve ha ht he htm hem
  rw [← sel_maskz, ← sel_masknz]
  exact ⟨⟨_, maskz va, rfl, runProgram_mask_sel (i := .maskz va) dst rfl rfl rfl ha ht he htm hem⟩,
    ⟨_, masknz va, rfl, runProgram_mask_sel (i := .masknz va) dst rfl rfl rfl ha ht he htm hem⟩⟩

/-! ### `RESCALE`, `HALVE` -/

/-- A saturated number strictly inside the range was not changed. -/
theorem sat32_eq_self {n : Int} (hlo : -2147483648 < sat32 n) (hhi : sat32 n < 2147483647) : sat32 n = n := by
  unfold sat32 at *
  split_ifs at * <;> omega

/-- R72 over the rationals. -/
theorem abs_roundAway_sub_div_le (n : Int) {d : Int} (hd : 0 < d) : |(roundAway n d : Rat) - n / d| ≤ 1 / 2 := by
  have hdQ : (0 : Rat) < 2 * d := by exact_mod_cast (by omega : 0 < 2 * d)
  have herr : |(2 : Rat) * (roundAway n d * d - n)| ≤ d := by
    exact_mod_cast abs_two_mul_roundAway_sub_le n hd
  have hform : (roundAway n d : Rat) - n / d = 2 * (roundAway n d * d - n) / (2 * d) := by
    field_simp
  rw [hform, abs_div, abs_of_pos hdQ, div_le_iff₀ hdQ]
  linarith

/-- Where `SRMULPOT` does not reach an end of the range it is within half a unit of the exact product. -/
theorem abs_srmulpotZ_sub_le {n e : Int} (hlo : -2 ^ 31 < srmulpotZ n e) (hhi : srmulpotZ n e < 2 ^ 31 - 1) :
    |(srmulpotZ n e : Rat) - n * (2 : Rat) ^ e| ≤ 1 / 2 := by
  by_cases he : e ≥ 0
  · lift e to Nat using he
    simp only [srmulpotZ, if_pos (Int.natCast_nonneg e), Int.toNat_natCast] at *
    rw [sat32_eq_self hlo hhi]
    simp
  · obtain ⟨m, rfl⟩ : ∃ m : Nat, e = -m := ⟨(-e).toNat, by omega⟩
    have hform : (n : Rat) * 2 ^ (-(m : Int)) = n / ((2 ^ m : Int) : Rat) := by
      rw [zpow_neg, zpow_natCast, div_eq_mul_inv]
      push_cast
      rfl
    rw [srmulpotZ, if_neg he, neg_neg, Int.toNat_natCast, rdivpotZ, hform]
    exact abs_roundAway_sub_div_le n (by positivity)

/-- R9: a value of the format `Qj` in units of the format `Qk`. -/
theorem qValue_eq_mul_unit (j k : Int) (x : Word) :
    qValue j x = x.toInt * (2 : Rat) ^ (j - k) * (2 : Rat) ^ (k - 31) := by
  rw [qValue_eq_mul, mul_assoc, ← zpow_add₀ two_ne_zero, sub_add_sub_cancel]

theorem answerInstr_srmulpot {e : Int} (hlo : -31 ≤ e) (hhi : e ≤ 31) (x : Word) :
    answerInstr (.srmulpot x (BitVec.ofInt 6 e)) = .ok (srmulpot x e) := by
  have he : immValue (BitVec.ofInt 6 e) = e := immValue_ofInt (by omega) hhi
  rw [answerInstr, srmulpotCheck, he, if_neg (by omega), answerOf_none]

theorem answerInstr_rdivpot {e : Nat} (hhi : e ≤ 31) (x : Word) :
    answerInstr (.rdivpot x (BitVec.ofInt 6 e)) = .ok (rdivpot x e) := by
  have he : immValue (BitVec.ofInt 6 e) = e := immValue_ofInt (by omega) (by omega)
  rw [answerInstr, rdivpotCheck, he, if_neg (by omega), answerOf_none, Int.toNat_natCast]

/-- Settles O59: the one line is `SRMULPOT` by the difference of the formats, and half a unit of its rounding is half a unit
of the target format. -/
theorem rescaleConvertsFormats : Obligations.RescaleConvertsFormats := by
  intro temps dst x v srcK dstK hv hlo hhi
  have hr := srmulpot_toInt v hlo hhi
  refine ⟨_, srmulpot v (srcK - dstK), if_pos ⟨hlo, hhi⟩, ?_, hr, fun hmin hmax => ?_⟩
  · rw [runProgram_single (AsmLine.assemble_UI dst rfl hv (by omega) hhi), ← answerInstr_srmulpot hlo hhi v]
    exact congrArg (fun answer => some [answer]) (answerRequest_encode (.srmulpot v _))
  · have hunit : (0 : Rat) < (2 : Rat) ^ (dstK - 31) := zpow_pos two_pos _
    rw [qValue_eq_mul_unit srcK dstK, qValue_eq_mul, ← sub_mul, abs_mul, abs_of_pos hunit]
    rw [hr] at hmin hmax ⊢
    exact mul_le_mul_of_nonneg_right (abs_srmulpotZ_sub_le hmin hmax) hunit.le

/-- Settles O60: the one line is `RDIVPOT` by one. -/
theorem halveRoundsAwayFromZero : Obligations.HalveRoundsAwayFromZero := by
  intro temps dst x v hv
  refine ⟨_, rdivpot v 1, rfl, ?_, rdivpot_toInt v (by norm_num)⟩
  rw [runProgram_single (AsmLine.assemble_UI dst rfl hv (by norm_num) (by norm_num)),
    ← answerInstr_rdivpot (e := 1) (by norm_num) v]
  exact congrArg (fun answer => some [answer]) (answerRequest_encode (.rdivpot v _))

end Sys2Proof.Machine

/-! The statements of 40_bit_select.md: the results of `MASKZ`, `MASKNZ` and `SEL` (R60 to R62) and their laws (R63). -/

namespace Sys2Proof.Machine

/-! ### The result of a command that does not fault -/

/-- A command answered with a result delivers it, and the rest of the state is as it was. -/
theorem exec_of_answerInstr_ok {i : Instr} {r : Word} (h : answerInstr i = .ok r) (s : State) :
    exec i s = .next { s with delivered := s.delivered ++ [⟨s.serving, ⟨r, .ok⟩⟩] } := by
  rw [exec_eq_respond, h]
  rfl

/-! ### The masks -/

/-- R60 over bit patterns. -/
theorem maskz_eq (a : Word) : maskz a = if a = 0#32 then allOnes else allZeros := by
  simp only [maskz, toInt_eq_zero_iff]

/-- R61 over bit patterns: the masks of `MASKZ`, complemented. -/
theorem masknz_eq (a : Word) : masknz a = if a = 0#32 then allZeros else allOnes := by
  rw [masknz, maskz_eq, apply_ite not32, not32_allOnes, not32_allZeros]

theorem not_masknz (a : Word) : ~~~masknz a = maskz a := BitVec.not_not

/-- Settles O14: the mask is the answer of the command. -/
theorem maskzResult : Obligations.MaskzResult := fun a =>
  exec_of_answerInstr_ok (congrArg Answer.ok (maskz_eq a))

/-- Settles O15: the mask is the answer of the command. -/
theorem masknzResult : Obligations.MasknzResult := fun a =>
  exec_of_answerInstr_ok (congrArg Answer.ok (masknz_eq a))

/-! ### `SEL` -/

/-- R62: where the mask bit is 1 only the first term of the union has a bit, and where it is 0 only the second. -/
theorem sel_getLsbD (mask t e : Word) {i : Nat} (hi : i < 32) :
    (sel mask t e).getLsbD i = if mask.getLsbD i then t.getLsbD i else e.getLsbD i := by
  simp only [sel, or32, and32, not32, BitVec.getLsbD_or, BitVec.getLsbD_and, BitVec.getLsbD_not, hi, decide_true,
    Bool.true_and]
  cases mask.getLsbD i with
  | true => simp
  | false => simp

/-- Settles O16: the answer is `sel`, bit by bit. -/
theorem selResult : Obligations.SelResult := fun mask t e s =>
  ⟨sel mask t e, exec_of_answerInstr_ok rfl s, fun _ => sel_getLsbD mask t e⟩

/-- Settles O25: the masks are complements and all ones or all zeros, and `SEL` by such a mask takes one operand whole. -/
theorem bitSelectLaws : Obligations.BitSelectLaws := by
  intro a t e
  have hones : -1#32 = allOnes := by decide
  refine ⟨(not_masknz a).symm, ?_, fun ha => ?_, ?_, sel_allZeros t e, sel_maskz a t e, sel_masknz a t e⟩
  · rw [maskz_eq, if_pos rfl, hones]
  · rw [maskz_eq, if_neg ha, allZeros]
  · rw [hones, sel_allOnes]

end Sys2Proof.Machine

/-! The statements of 41_pot_scaling.md: the results of `RDIVPOT`, `SRMULPOT` and `RHSUM` (R70, R74, R76), and how they
and `FPMUL` round a half (R72, R77). -/

namespace Sys2Proof.Machine

/-! ### Rounding to nearest, ties away from zero -/

/-- What is at most `b` divisors in size rounds to at most `b`: half a divisor of error does not reach `b + 1`. -/
theorem abs_roundAway_le {n d b : Int} (hd : 0 < d) (h : |n| ≤ b * d) : |roundAway n d| ≤ b := by
  obtain ⟨hlo, hhi⟩ := abs_le.mp h
  obtain ⟨herrlo, herrhi⟩ := abs_le.mp (abs_two_mul_roundAway_sub_le n hd)
  have hup : roundAway n d < b + 1 := lt_of_mul_lt_mul_right (by linarith) hd.le
  have hdown : -(b + 1) < roundAway n d := lt_of_mul_lt_mul_right (by linarith) hd.le
  exact abs_le.mpr ⟨by omega, by omega⟩

/-- R72: an odd number of half divisors is a tie, which goes to the integer farther from zero. -/
theorem roundAway_tie (j : Int) {h : Int} (hh : 0 < h) :
    roundAway ((2 * j + 1) * h) (2 * h) = if (2 * j + 1) * h > 0 then j + 1 else j := by
  have hunit : 2 * (2 * h) ≠ 0 := by omega
  rcases lt_or_ge j 0 with hj | hj
  · have hneg : (2 * j + 1) * h < 0 := mul_neg_of_neg_of_pos (by omega) hh
    have hunits : 2 * -((2 * j + 1) * h) + 2 * h = -j * (2 * (2 * h)) := by ring
    rw [roundAway, if_neg (by omega), if_neg (by omega), hunits, Int.mul_ediv_cancel _ hunit, neg_neg]
  · have hpos : 0 < (2 * j + 1) * h := mul_pos (by omega) hh
    have hunits : 2 * ((2 * j + 1) * h) + 2 * h = (j + 1) * (2 * (2 * h)) := by ring
    rw [roundAway, if_pos hpos.le, if_pos hpos, hunits, Int.mul_ediv_cancel _ hunit]

/-- R72: the rounding treats both signs alike. -/
theorem roundAway_neg (n : Int) {d : Int} (hd : 0 < d) : roundAway (-n) d = -roundAway n d := by
  unfold roundAway
  rcases lt_trichotomy n 0 with hn | rfl | hn
  · rw [if_pos (by omega), if_neg (by omega), neg_neg]
  · have hzero : d / (2 * d) = 0 := Int.ediv_eq_zero_of_lt hd.le (by omega)
    simp [hzero]
  · rw [if_neg (by omega), if_pos hn.le, neg_neg]

/-! ### Operands -/

/-- An immediate that is not negative is the unsigned number of its six bits. -/
theorem immediate_toInt_of_nonneg {e : Imm6} (h : 0 ≤ e.toInt) : e.toInt = e.toNat := by
  rw [BitVec.toInt_eq_toNat_cond] at *
  split at * <;> omega

/-- Every word but `INT32_MIN` has its negative among the words. -/
theorem neg32_toInt {x : Word} (hx : x.toInt ≠ -2 ^ 31) : (neg32 x).toInt = -x.toInt := by
  have hbounds := toInt_bounds x
  exact wrap32_toInt (by omega) (by omega)

/-! ### Results -/

/-- R70: the quotient of a word by `2^e` needs no more than `31 - e` bits and the sign. -/
theorem abs_rdivpotZ_le (x : Word) {e : Nat} (he : e ≤ 31) : |rdivpotZ x.toInt e| ≤ 2 ^ (31 - e) := by
  refine abs_roundAway_le (by positivity) ?_
  have hx := toInt_bounds x
  rw [← pow_add, Nat.sub_add_cancel he]
  exact abs_le.mpr ⟨by omega, by omega⟩

/-- Settles O17: an exponent that is not negative passes the check, and the answer is the rounded quotient. -/
theorem rdivpotResult : Obligations.RdivpotResult := by
  intro x e s he
  have hnat := immediate_toInt_of_nonneg he
  have hle : e.toInt ≤ 31 := (immValue_bounds e).2
  have hhi : e.toNat ≤ 31 := by omega
  have hanswer : answerInstr (.rdivpot x e) = .ok (rdivpot x e.toNat) := by
    rw [← answerInstr_rdivpot hhi x, ← hnat, BitVec.ofInt_toInt]
  have hr := rdivpot_toInt x hhi
  exact ⟨_, exec_of_answerInstr_ok hanswer s, hr, hr ▸ abs_rdivpotZ_le x hhi⟩

/-- Settles O18: an exponent other than -32 passes the check, and the answer is the closed form. -/
theorem srmulpotResult : Obligations.SrmulpotResult := by
  intro x e s hlo
  have hhi : e.toInt ≤ 31 := (immValue_bounds e).2
  have hanswer : answerInstr (.srmulpot x e) = .ok (srmulpot x e.toInt) := by
    rw [← answerInstr_srmulpot hlo hhi x, BitVec.ofInt_toInt]
  exact ⟨_, exec_of_answerInstr_ok hanswer s, srmulpot_toInt x hlo hhi⟩

/-- Settles O19: no operands of `RHSUM` fault, and the answer is the rounded half of the sum. -/
theorem rhsumResult : Obligations.RhsumResult := fun a b s =>
  ⟨rhsum a b, exec_of_answerInstr_ok rfl s, rhsum_toInt a b⟩

/-! ### Ties -/

/-- Settles O26: both laws are those of the rounding, at the divisor `2^e`. -/
theorem rdivpotTiesGoAwayFromZero : Obligations.RdivpotTiesGoAwayFromZero := by
  refine ⟨fun x e j he1 he31 htie => ?_, fun x e he hx => ?_⟩
  · obtain ⟨m, rfl⟩ := Nat.exists_eq_add_of_le' he1
    rw [Nat.add_sub_cancel] at htie
    rw [rdivpot_toInt x he31, rdivpotZ, htie, pow_succ', roundAway_tie j (by positivity)]
  · rw [rdivpot_toInt _ he, rdivpot_toInt _ he, neg32_toInt hx]
    exact roundAway_neg _ (by positivity)

/-- Settles O27: of the half -1/2, ties away from zero make -1 and ties toward plus infinity 0. -/
theorem roundingsDiffer : Obligations.RoundingsDiffer := by
  have haway : roundAway (-1) 2 = -1 := by decide
  have hup : roundUp (-1 * 2 ^ 30) (2 ^ 31) = 0 := by decide
  refine ⟨word_eq_of_toInt ?_, word_eq_of_toInt ?_, word_eq_of_toInt ?_⟩
  · exact (rdivpot_toInt _ (by norm_num)).trans haway
  · exact (rhsum_toInt _ _).trans haway
  · exact (fpmul_toInt_roundUp (by decide)).trans hup

end Sys2Proof.Machine

/-! The statements of 42_fp_mult.md: the result of `FPMUL` (R85, R86) and its laws (R88 (a) to (f)). -/

namespace Sys2Proof.Machine

/-! ### The result -/

/-- R85: the one saturating pair. -/
theorem fpmul_toInt_of_minima {x y : Word} (hx : x.toInt = -2 ^ 31) (hy : y.toInt = -2 ^ 31) :
    (fpmul x y).toInt = 2 ^ 31 - 1 := by
  obtain rfl : x = int32Min := word_eq_of_toInt hx
  obtain rfl : y = int32Min := word_eq_of_toInt hy
  decide

/-- Settles O20: no operands of `FPMUL` fault, and the answer is the closed form or the saturated product. -/
theorem fpmulResult : Obligations.FpmulResult := by
  intro a b s
  refine ⟨fpmul a b, exec_of_answerInstr_ok rfl s, ?_⟩
  split
  · next h => exact fpmul_toInt_of_minima h.1 h.2
  · next h => exact fpmul_toInt h

/-- R86: the error of a product that does not saturate, one end of it excluded, since a tie goes up. -/
theorem fpmul_error_bounds {x y : Word} (h : ¬(x.toInt = -2 ^ 31 ∧ y.toInt = -2 ^ 31)) :
    (fpmul x y).toInt * 2 ^ 31 ≤ x.toInt * y.toInt + 2 ^ 30 ∧
      x.toInt * y.toInt - 2 ^ 30 < (fpmul x y).toInt * 2 ^ 31 := by
  rw [fpmul_toInt h]
  omega

/-- No product is `INT32_MIN`, not even of `INT32_MIN` and `INT32_MAX`. -/
theorem fpmul_toInt_ne_min (x y : Word) : (fpmul x y).toInt ≠ -2 ^ 31 := by
  by_cases h : x.toInt = -2 ^ 31 ∧ y.toInt = -2 ^ 31
  · rw [fpmul_toInt_of_minima h.1 h.2]
    decide
  · have hlo := neg_le_of_abs_le (abs_toInt_mul_le h)
    rw [fpmul_toInt h]
    omega

/-- Settles O29: the rounding error, and for the pair of two minima the unit that saturation takes off. -/
theorem fpmulErrorAtMostHalf : Obligations.FpmulErrorAtMostHalf := by
  intro a b
  refine ⟨fpmul_error_le_half, fun ha hb => ?_⟩
  rw [fpmul_toInt_of_minima ha hb, ha, hb]
  decide

/-! ### Order and sign of the operands -/

/-- R88 (a). -/
theorem fpmul_comm (x y : Word) : fpmul x y = fpmul y x := by
  apply word_eq_of_toInt
  rw [fpmul_toInt_eq_fpmulZ, fpmul_toInt_eq_fpmulZ, fpmulZ, fpmulZ, mul_comm]

/-- R88 (b): both a tie and its negative are rounded up, which for the two together is one unit. -/
theorem fpmul_neg32_toInt {x : Word} (hx : x.toInt ≠ -2 ^ 31) (y : Word) :
    (fpmul (neg32 x) y).toInt =
      if x.toInt * y.toInt % 2 ^ 31 = 2 ^ 30 then -(fpmul x y).toInt + 1 else -(fpmul x y).toInt := by
  have hbounds := toInt_bounds x
  have hneg := neg32_toInt hx
  rw [fpmul_toInt (by omega), fpmul_toInt (by omega), hneg, neg_mul]
  split <;> omega

/-- Settles O28. -/
theorem fpmulCommutesAndIsNotOdd : Obligations.FpmulCommutesAndIsNotOdd := fun a b =>
  ⟨fpmul_comm a b, fun ha => fpmul_neg32_toInt ha b⟩

/-- Settles O32: with an operand that is not negative nothing saturates, and the exact product and its rounded quotient
keep the order. -/
theorem fpmulMonotone : Obligations.FpmulMonotone := by
  intro a a' b hb hle
  have hprod : a.toInt * b.toInt ≤ a'.toInt * b.toInt := mul_le_mul_of_nonneg_right hle hb
  rw [fpmul_toInt (by omega), fpmul_toInt (by omega)]
  omega

/-! ### The ends of the range as operands -/

/-- R88 (d): the product by `2^31 - 1` falls short of the operand by `x / 2^31`, which the rounding takes back up to a
half. -/
theorem fpmul_int32Max_toInt (x : Word) : (fpmul int32Max x).toInt =
    if x.toInt > 2 ^ 30 then x.toInt - 1 else if x.toInt > -2 ^ 30 then x.toInt else x.toInt + 1 := by
  have hbounds := toInt_bounds x
  rw [fpmul_toInt (by rw [int32Max_toInt]; omega), int32Max_toInt]
  split_ifs <;> omega

/-- Settles O30. -/
theorem fpmulByUnit : Obligations.FpmulByUnit := fpmul_int32Max_toInt

/-- `INT32_MIN` stands for minus one: it negates its operand, but for the saturating pair. -/
theorem fpmul_int32Min_toInt (x : Word) :
    (fpmul int32Min x).toInt = if x.toInt = -2 ^ 31 then 2 ^ 31 - 1 else -x.toInt := by
  split
  · next h => exact fpmul_toInt_of_minima int32Min_toInt h
  · next h =>
    rw [fpmul_toInt (fun hmin => h hmin.2), int32Min_toInt]
    omega

/-! ### Associativity to within a unit -/

/-- R88 (e) where the left inner product saturates: multiplying by the saturated product, and negating twice, leave every
operand to within a unit. -/
theorem fpmul_assoc_of_minima (c : Word) :
    |(fpmul (fpmul int32Min int32Min) c).toInt - (fpmul int32Min (fpmul int32Min c)).toInt| ≤ 1 := by
  have hbounds := toInt_bounds c
  have hsat : fpmul int32Min int32Min = int32Max := by decide
  rw [hsat, fpmul_int32Max_toInt, fpmul_int32Min_toInt (fpmul int32Min c), if_neg (fpmul_toInt_ne_min _ _),
    fpmul_int32Min_toInt, abs_le]
  split_ifs <;> omega

/-- The half unit of an inner product, multiplied by the outer operand. -/
theorem fpmul_scaled_error {x y : Word} (h : ¬(x.toInt = -2 ^ 31 ∧ y.toInt = -2 ^ 31)) (z : Word) :
    |((fpmul x y).toInt * 2 ^ 31 - x.toInt * y.toInt) * z.toInt| ≤ 2 ^ 30 * 2 ^ 31 := by
  have hz := toInt_bounds z
  have herr := fpmul_error_le_half h
  exact abs_mul_le_mul (by omega) (abs_le.mpr (by omega))

/-- R88 (e), one side of it: each grouping is within two half units of the exact product, and the outer roundings cannot
both be off by a half in opposite directions. -/
theorem fpmul_assoc_sub_le_one {a b c : Word} (hab : ¬(a.toInt = -2 ^ 31 ∧ b.toInt = -2 ^ 31))
    (hbc : ¬(b.toInt = -2 ^ 31 ∧ c.toInt = -2 ^ 31)) :
    (fpmul (fpmul a b) c).toInt - (fpmul a (fpmul b c)).toInt ≤ 1 := by
  have hleft := (fpmul_error_bounds (x := fpmul a b) (y := c) fun h => fpmul_toInt_ne_min a b h.1).1
  have hright := (fpmul_error_bounds (x := a) (y := fpmul b c) fun h => fpmul_toInt_ne_min b c h.2).2
  have hinnerLeft := le_of_abs_le (fpmul_scaled_error hab c)
  have hinnerRight := neg_le_of_abs_le (fpmul_scaled_error hbc a)
  linarith

/-- R88 (e) where no inner product saturates: the groupings are each other's mirror images. -/
theorem fpmul_assoc_of_not_minima {a b c : Word} (hab : ¬(a.toInt = -2 ^ 31 ∧ b.toInt = -2 ^ 31))
    (hbc : ¬(b.toInt = -2 ^ 31 ∧ c.toInt = -2 ^ 31)) :
    |(fpmul (fpmul a b) c).toInt - (fpmul a (fpmul b c)).toInt| ≤ 1 := by
  have hmirror := fpmul_assoc_sub_le_one (hbc ∘ And.symm) (hab ∘ And.symm)
  rw [fpmul_comm (fpmul c b), fpmul_comm c (fpmul b a), fpmul_comm c b, fpmul_comm b a] at hmirror
  exact abs_sub_le_iff.mpr ⟨fpmul_assoc_sub_le_one hab hbc, hmirror⟩

/-- Settles O31: by which of the two inner products saturates. -/
theorem fpmulBoundedNonAssociativity : Obligations.FpmulBoundedNonAssociativity := by
  intro a b c
  by_cases hab : a.toInt = -2 ^ 31 ∧ b.toInt = -2 ^ 31
  · obtain rfl : a = int32Min := word_eq_of_toInt hab.1
    obtain rfl : b = int32Min := word_eq_of_toInt hab.2
    exact fpmul_assoc_of_minima c
  by_cases hbc : b.toInt = -2 ^ 31 ∧ c.toInt = -2 ^ 31
  · obtain rfl : b = int32Min := word_eq_of_toInt hbc.1
    obtain rfl : c = int32Min := word_eq_of_toInt hbc.2
    rw [abs_sub_comm, fpmul_comm a, fpmul_comm (fpmul a int32Min), fpmul_comm a]
    exact fpmul_assoc_of_minima a
  · exact fpmul_assoc_of_not_minima hab hbc

end Sys2Proof.Machine

/-! The statements of 43_exp.md about `EXPR`: its result (R95, R98 (a)), that it is monotone (R98 (c)) and its range
(R98 (b)). -/

namespace Sys2Proof.Machine

/-! ### The result -/

/-- R96: an operand in the domain passes the check. -/
theorem exprCheck_eq_none {a : Word} (hlo : -2 ^ 29 ≤ a.toInt) (hhi : a.toInt ≤ -1) : exprCheck a = none :=
  if_pos ⟨hlo, hhi⟩

/-- Settles O21: an operand in the domain passes the check, and the answer is the polynomial. -/
theorem exprResult : Obligations.ExprResult := by
  intro a s hlo hhi
  have hanswer : answerInstr (.expr a) = .ok (expr a) := by rw [answerInstr, exprCheck_eq_none hlo hhi, answerOf_none]
  exact ⟨expr a, exec_of_answerInstr_ok hanswer s, expr_toInt hlo hhi⟩

/-! ### The polynomial in the lines of R95 -/

/-- `x2`, `x3` and `x4` of R95. -/
def squareZ (x : Int) : Int := roundUp (x * x) (2 ^ 31)
def cubeZ (x : Int) : Int := roundUp (squareZ x * x) (2 ^ 31)
def fourthZ (x : Int) : Int := roundUp (squareZ x * squareZ x) (2 ^ 31)

/-- `t` of R95: `x^2 + (x^3 + x^4/4)/3`. -/
def bracketZ (x : Int) : Int := roundUp ((roundAway (fourthZ x) 4 + cubeZ x) * 715827883) (2 ^ 31) + squareZ x

/-- `x + p` of R95: the Taylor polynomial without its constant term. -/
def seriesZ (x : Int) : Int := x + roundAway (bracketZ x) 2

theorem exprZ_eq (a : Int) : exprZ a = 1895147668 + roundUp (1895147668 * seriesZ (a + 2 ^ 28)) (2 ^ 31) := rfl

/-! ### Monotonicity -/

/-- A rounded quotient by `2^31` drops by no more units than its dividend. -/
theorem sub_le_roundUp {n n' b : Int} (h : n - b * 2 ^ 31 ≤ n') : roundUp n (2 ^ 31) - b ≤ roundUp n' (2 ^ 31) := by
  rw [roundUp_two_pow_31, roundUp_two_pow_31]
  omega

theorem roundUp_le_roundUp {n n' : Int} (h : n ≤ n') : roundUp n (2 ^ 31) ≤ roundUp n' (2 ^ 31) := by
  have hdrop := sub_le_roundUp (b := 0) (by omega : n - 0 * 2 ^ 31 ≤ n')
  omega

theorem squareZ_bounds {x : Int} (h : |x| ≤ 2 ^ 28) : 0 ≤ squareZ x ∧ squareZ x ≤ 2 ^ 25 := by
  have hsq := mul_self_nonneg x
  have hle := le_of_abs_le (abs_mul_le_mul h h)
  rw [squareZ, roundUp_two_pow_31]
  omega

/-- The bracket is not negative: its cubic term takes away no more than the square adds. -/
theorem bracketZ_nonneg {x : Int} (h : |x| ≤ 2 ^ 28) : 0 ≤ bracketZ x := by
  obtain ⟨hsq, -⟩ := squareZ_bounds h
  have hcube : roundUp 0 (2 ^ 31) - squareZ x ≤ cubeZ x := by
    have hlow := mul_le_mul_of_nonneg_left (neg_le_of_abs_le h) hsq
    exact sub_le_roundUp (by linarith)
  have hfourth : 0 ≤ roundAway (fourthZ x) 4 :=
    (le_min (roundUp_le_roundUp (mul_self_nonneg (squareZ x))) le_rfl).trans (roundAway_between _ (by norm_num)).1
  have hzero : roundUp 0 (2 ^ 31) = 0 := by decide
  have hthird := sub_le_roundUp (b := squareZ x) (by omega :
    0 - squareZ x * 2 ^ 31 ≤ (roundAway (fourthZ x) 4 + cubeZ x) * 715827883)
  unfold bracketZ
  omega

section
variable {x : Int} (hx : |x| ≤ 2 ^ 28)
include hx

/-- From one argument to the next the square moves by a unit at most, its slope being at most 1/4. -/
theorem abs_squareZ_succ_sub_le : |squareZ (x + 1) - squareZ x| ≤ 1 := by
  obtain ⟨hlo, hhi⟩ := abs_le.mp hx
  have hexpand : (x + 1) * (x + 1) = x * x + 2 * x + 1 := by ring
  rw [squareZ, squareZ, hexpand, roundUp_two_pow_31, roundUp_two_pow_31, abs_le]
  omega

variable (hx' : |x + 1| ≤ 2 ^ 28)
include hx'

theorem cubeZ_sub_one_le : cubeZ x - 1 ≤ cubeZ (x + 1) := by
  obtain ⟨hsq, -⟩ := squareZ_bounds hx
  have hstep := neg_le_of_abs_le (abs_mul_le_mul (abs_squareZ_succ_sub_le hx) hx')
  refine sub_le_roundUp ?_
  linarith

theorem fourthZ_sub_one_le : fourthZ x - 1 ≤ fourthZ (x + 1) := by
  obtain ⟨hlo, hhi⟩ := squareZ_bounds hx
  obtain ⟨hlo', hhi'⟩ := squareZ_bounds hx'
  have hsum : |squareZ (x + 1) + squareZ x| ≤ 2 ^ 26 := abs_le.mpr ⟨by omega, by omega⟩
  have hstep := neg_le_of_abs_le (abs_mul_le_mul (abs_squareZ_succ_sub_le hx) hsum)
  refine sub_le_roundUp ?_
  linarith

/-- Two units of the third and fourth powers are less than one after the division by 3. -/
theorem bracketZ_sub_two_le : bracketZ x - 2 ≤ bracketZ (x + 1) := by
  have hsq := neg_le_of_abs_le (abs_squareZ_succ_sub_le hx)
  have hcube := cubeZ_sub_one_le hx hx'
  have hfourth : roundAway (fourthZ x) 4 - 1 ≤ roundAway (fourthZ (x + 1)) 4 := by
    have hdrop := fourthZ_sub_one_le hx hx'
    unfold roundAway
    split_ifs <;> omega
  have hthird := sub_le_roundUp (b := 1) (by omega :
    (roundAway (fourthZ x) 4 + cubeZ x) * 715827883 - 1 * 2 ^ 31 ≤
      (roundAway (fourthZ (x + 1)) 4 + cubeZ (x + 1)) * 715827883)
  unfold bracketZ
  omega

/-- The linear term makes up for what the halved bracket loses. -/
theorem seriesZ_le_succ : seriesZ x ≤ seriesZ (x + 1) := by
  have hdrop := bracketZ_sub_two_le hx hx'
  have hnonneg := bracketZ_nonneg hx'
  unfold seriesZ roundAway
  split_ifs <;> omega

end

theorem exprZ_le_succ {a : Int} (hlo : -2 ^ 29 ≤ a) (hhi : a + 1 ≤ -1) : exprZ a ≤ exprZ (a + 1) := by
  have hseries := seriesZ_le_succ (x := a + 2 ^ 28) (abs_le.mpr ⟨by omega, by omega⟩) (abs_le.mpr ⟨by omega, by omega⟩)
  rw [exprZ_eq, exprZ_eq, add_right_comm a 1]
  exact add_le_add_right (roundUp_le_roundUp (mul_le_mul_of_nonneg_left hseries (by norm_num))) _

/-- R98 (c) over the integers. -/
theorem exprZ_le_exprZ {a a' : Int} (hlo : -2 ^ 29 ≤ a) (hle : a ≤ a') (hhi : a' ≤ -1) : exprZ a ≤ exprZ a' := by
  induction a', hle using Int.leInduction with
  | base => exact le_rfl
  | succ b hab ih => exact (ih (by omega)).trans (exprZ_le_succ (hlo.trans hab) hhi)

/-- Settles O35, one argument at a time. -/
theorem exprMonotone : Obligations.ExprMonotone := by
  intro a a' hlo hle hhi
  rw [expr_toInt hlo (hle.trans hhi), expr_toInt (hlo.trans hle) hhi]
  exact exprZ_le_exprZ hlo hle hhi

/-! ### The range -/

theorem exprZ_lower_end : exprZ (-2 ^ 29) = 1672462419 := by decide
theorem exprZ_upper_end : exprZ (-1) = 2147483155 := by decide

theorem exprZ_bounds {a : Int} (hlo : -2 ^ 29 ≤ a) (hhi : a ≤ -1) : 1672462419 ≤ exprZ a ∧ exprZ a ≤ 2147483155 :=
  ⟨exprZ_lower_end ▸ exprZ_le_exprZ le_rfl hlo hhi, exprZ_upper_end ▸ exprZ_le_exprZ hlo hhi le_rfl⟩

/-- Settles O36: being monotone, `EXPR` lies between its values at the ends of the domain. -/
theorem exprRange : Obligations.ExprRange := by
  have hmin : (BitVec.ofInt 32 (-2 ^ 29)).toInt = -2 ^ 29 := by decide
  have hmax : (BitVec.ofInt 32 (-1)).toInt = -1 := by decide
  refine ⟨fun a hlo hhi => ?_, ?_, ?_⟩
  · rw [expr_toInt hlo hhi]
    exact exprZ_bounds hlo hhi
  · rw [expr_toInt (by omega) (by omega), hmin, exprZ_lower_end]
  · rw [expr_toInt (by omega) (by omega), hmax, exprZ_upper_end]

end Sys2Proof.Machine

/-! The statements of 43_exp.md and 00_scope.md about the real exponential: the hard-wired constants (R15, R103, R115) and
the error of `EXPR` (R98 (d)). -/

namespace Sys2Proof.Machine

/-- A product within the product of its factors' bounds, `abs_mul_le_mul` over the reals. -/
theorem abs_mul_le_mul_real {x y b c : ℝ} (hx : |x| ≤ b) (hy : |y| ≤ c) : |x * y| ≤ b * c :=
  (abs_mul x y).trans_le (mul_le_mul hx hy (abs_nonneg y) ((abs_nonneg x).trans hx))

/-! ### Raws of `Q0` as approximations -/

/-- The raw `n` of `Q0` (R9) is within `ε` units of the real number `r`. -/
def nearRaw (ε : ℝ) (n : Int) (r : ℝ) : Prop := |(n : ℝ) - 2 ^ 31 * r| ≤ ε

theorem nearRaw.mono {ε ε' r : ℝ} {n : Int} (h : nearRaw ε n r) (hε : ε ≤ ε') : nearRaw ε' n r := h.trans hε

theorem nearRaw_exact (n : Int) : nearRaw 0 n (n / 2 ^ 31) := by
  rw [nearRaw, mul_div_cancel₀ _ (by norm_num), sub_self, abs_zero]

theorem nearRaw.add {ε ε' r r' : ℝ} {n n' : Int} (h : nearRaw ε n r) (h' : nearRaw ε' n' r') :
    nearRaw (ε + ε') (n + n') (r + r') := by
  have hsum : ((n + n' : Int) : ℝ) - 2 ^ 31 * (r + r') = (n - 2 ^ 31 * r) + (n' - 2 ^ 31 * r') := by push_cast; ring
  rw [nearRaw, hsum]
  exact (abs_add_le _ _).trans (add_le_add h h')

/-- R70: a rounded quotient carries the error of its dividend, divided, and half a unit. -/
theorem nearRaw.roundAway {ε r : ℝ} {n d : Int} (h : nearRaw ε n r) (hd : 0 < d) :
    nearRaw (1 / 2 + ε / d) (roundAway n d) (r / d) := by
  have hd' : (0 : ℝ) < d := Int.cast_pos.mpr hd
  have hround : |(Machine.roundAway n d : ℝ) - n / d| ≤ 1 / 2 := by
    have hcast := (Rat.cast_le (K := ℝ)).mpr (abs_roundAway_sub_div_le n hd)
    push_cast at hcast
    exact hcast
  have hdiv : |(n : ℝ) / d - 2 ^ 31 * (r / d)| ≤ ε / d := by
    rw [mul_div_assoc', ← sub_div, abs_div, abs_of_pos hd']
    exact div_le_div_of_nonneg_right h hd'.le
  exact (abs_sub_le _ _ _).trans (add_le_add hround hdiv)

/-- R86: the rounded product carries the error of each factor, scaled by the other, and half a unit. -/
theorem nearRaw.mul {ε ε' r r' b b' : ℝ} {n n' : Int} (h : nearRaw ε n r) (h' : nearRaw ε' n' r')
    (hb : |r| ≤ b) (hb' : |r'| ≤ b') :
    nearRaw (1 / 2 + (b' * ε + b * ε' + ε * ε' / 2 ^ 31)) (roundUp (n * n') (2 ^ 31)) (r * r') := by
  obtain ⟨e, he, heq⟩ := roundUp_error (n * n')
  have he' : |(e : ℝ)| ≤ 2 ^ 30 := by exact_mod_cast he
  have heq' : (2 : ℝ) ^ 31 * (roundUp (n * n') (2 ^ 31) : ℝ) = n * n' + e := by exact_mod_cast heq
  have hsplit : (roundUp (n * n') (2 ^ 31) : ℝ) - 2 ^ 31 * (r * r') = e / 2 ^ 31 +
      (r' * (n - 2 ^ 31 * r) + r * (n' - 2 ^ 31 * r') + (n - 2 ^ 31 * r) * (n' - 2 ^ 31 * r') / 2 ^ 31) := by
    field_simp
    linear_combination heq'
  rw [nearRaw, hsplit]
  refine (abs_add_le _ _).trans (add_le_add ?_ ((abs_add_three _ _ _).trans
    (add_le_add_three (abs_mul_le_mul_real hb' h) (abs_mul_le_mul_real hb h') ?_)))
  · rw [abs_div, abs_of_pos (by norm_num : (0 : ℝ) < 2 ^ 31), div_le_iff₀ (by norm_num)]
    linarith
  · rw [abs_div, abs_of_pos (by norm_num : (0 : ℝ) < 2 ^ 31)]
    exact div_le_div_of_nonneg_right (abs_mul_le_mul_real h h') (by norm_num)

/-! ### The hard-wired constants -/

/-- The exponential of -1/8 to thirteen decimals, of which every exponential in the constants is a power. -/
theorem exp_neg_eighth_bounds : 0.8824969025845 ≤ Real.exp (-1 / 8) ∧ Real.exp (-1 / 8) ≤ 0.8824969025846 := by
  have hsmall : |(-1 / 8 : ℝ)| = 1 / 8 := by norm_num [abs_of_neg]
  have htaylor := Real.exp_bound (x := -1 / 8) (by rw [hsmall]; norm_num) (n := 10) (by norm_num)
  rw [hsmall, abs_le] at htaylor
  norm_num [Finset.sum_range_succ, Nat.factorial] at htaylor
  constructor <;> linarith

theorem nearRaw_exp_neg_eighths {m : Int} (n : ℕ) (hlo : m - 1 / 2 ≤ (2 : ℝ) ^ 31 * 0.8824969025845 ^ n)
    (hhi : (2 : ℝ) ^ 31 * 0.8824969025846 ^ n ≤ m + 1 / 2) : nearRaw (1 / 2) m (Real.exp (-(n / 8))) := by
  obtain ⟨hl, hh⟩ := exp_neg_eighth_bounds
  have hpow : Real.exp (-(n / 8)) = Real.exp (-1 / 8) ^ n := by rw [← Real.exp_nat_mul]; ring_nf
  have hl' := pow_le_pow_left₀ (by norm_num) hl n
  have hh' := pow_le_pow_left₀ (Real.exp_pos _).le hh n
  rw [nearRaw, hpow, abs_le]
  constructor <;> linarith

theorem nearRaw_expC : nearRaw (1 / 2) 1895147668 (Real.exp (-1 / 8)) := by
  have h := nearRaw_exp_neg_eighths (m := 1895147668) 1 (by norm_num) (by norm_num)
  convert h using 2
  norm_num

theorem nearRaw_oneThird : nearRaw (1 / 3) 715827883 (1 / 3) := by
  norm_num [nearRaw, abs_le]

/-- R103: each rung's multiplier against the power of `e^(-1/8)` that its exponent stands for. -/
theorem ladder_eighths : ∀ rung ∈ ladder, -3 ≤ rung.1 ∧
    (rung.2.toInt : ℝ) - 1 / 2 ≤ 2 ^ 31 * 0.8824969025845 ^ 2 ^ (rung.1 + 3).toNat ∧
    2 ^ 31 * 0.8824969025846 ^ 2 ^ (rung.1 + 3).toNat ≤ (rung.2.toInt : ℝ) + 1 / 2 := by
  norm_num [ladder, wrap32_toInt, Int.toNat]

theorem ladder_nearRaw : ∀ rung ∈ ladder, nearRaw (1 / 2) rung.2.toInt (Real.exp (-(2 : ℝ) ^ rung.1)) := by
  intro rung hrung
  obtain ⟨he, hlo, hhi⟩ := ladder_eighths rung hrung
  have hexp : (2 : ℝ) ^ rung.1 = ((2 ^ (rung.1 + 3).toNat : ℕ) : ℝ) / 8 := by
    have h3 : rung.1 = ((rung.1 + 3).toNat : Int) - 3 := by omega
    rw [h3, zpow_sub₀ two_ne_zero, zpow_natCast, Int.sub_add_cancel, Int.toNat_natCast]
    norm_num
  rw [hexp]
  exact nearRaw_exp_neg_eighths _ hlo hhi

/-- Settles O38: the exponentials by powers of one of them, the fractions by arithmetic. -/
theorem constantsAreCorrectlyRounded : Obligations.ConstantsAreCorrectlyRounded := by
  refine ⟨ladder_nearRaw, ?_, ?_, ?_, ?_⟩
  · rw [expC_toInt]
    exact nearRaw_expC
  · rw [oneThird_toInt]
    norm_num [abs_le]
  · rw [c48Over17_toInt]
    norm_num [abs_le]
  · rw [cNeg32Over17_toInt]
    norm_num [abs_le]

/-! ### The error of `EXPR` -/

/-- R97: the Taylor polynomial of R95 without its constant term, in the order of R95. -/
noncomputable def taylorTail (y : ℝ) : ℝ := y + (y * y + (y * y * (y * y) / 4 + y * y * y) * (1 / 3)) / 2

section
variable {y : ℝ} (hy : |y| ≤ 1 / 8)
include hy

/-- The square, the dividend of the division by 3 and the sum of the lines of R95. -/
theorem taylor_terms_bounds : |y * y| ≤ 1 / 64 ∧ |y * y * (y * y) / 4 + y * y * y| ≤ 1 / 64 ∧ |taylorTail y| ≤ 1 := by
  have h2 := abs_le.mp (abs_mul_le_mul_real hy hy)
  have h3 := abs_le.mp (abs_mul_le_mul_real (abs_mul_le_mul_real hy hy) hy)
  have h4 := abs_le.mp (abs_mul_le_mul_real (abs_mul_le_mul_real hy hy) (abs_mul_le_mul_real hy hy))
  have h1 := abs_le.mp hy
  simp only [taylorTail, abs_le]
  refine ⟨⟨?_, ?_⟩, ⟨?_, ?_⟩, ?_, ?_⟩ <;> linarith

/-- On `[-1/8, 1/8]` the Taylor polynomial is this near the exponential. -/
theorem abs_taylor_sub_exp_le : |1 + taylorTail y - Real.exp y| ≤ (1 / 8) ^ 5 * (1 / 100) := by
  have htaylor := Real.exp_bound (hy.trans (by norm_num)) (n := 5) (by norm_num)
  have hpow : |y| ^ 5 ≤ (1 / 8) ^ 5 := pow_le_pow_left₀ (abs_nonneg y) hy 5
  have hsum : ∑ m ∈ Finset.range 5, y ^ m / m.factorial = 1 + taylorTail y := by
    simp only [Finset.sum_range_succ, Finset.sum_range_zero, Nat.factorial, taylorTail]
    push_cast
    ring
  rw [hsum, abs_sub_comm] at htaylor
  norm_num [Nat.factorial] at htaylor hpow ⊢
  linarith

/-- The roundings of R95, line by line, cost three units in all. -/
theorem nearRaw_exprZ {a : Int} (ha : nearRaw 0 (a + 2 ^ 28) y) :
    nearRaw 3 (exprZ a) (Real.exp (-1 / 8) * (1 + taylorTail y)) := by
  obtain ⟨b2, bs, bv⟩ := taylor_terms_bounds hy
  have h2 : nearRaw (1 / 2) (squareZ (a + 2 ^ 28)) (y * y) := (ha.mul ha hy hy).mono (by norm_num)
  have h3 : nearRaw (9 / 16) (cubeZ (a + 2 ^ 28)) (y * y * y) := (h2.mul ha b2 hy).mono (by norm_num)
  have h4 : nearRaw (9 / 16) (fourthZ (a + 2 ^ 28)) (y * y * (y * y)) := (h2.mul h2 b2 b2).mono (by norm_num)
  have hs := (h4.roundAway (d := 4) (by norm_num)).add h3
  have hm := hs.mul nearRaw_oneThird bs (b' := 1 / 3) (by norm_num [abs_le])
  have ht : nearRaw (7 / 4) (bracketZ (a + 2 ^ 28)) (y * y + (y * y * (y * y) / 4 + y * y * y) * (1 / 3)) :=
    add_comm (y * y) _ ▸ (hm.add h2).mono (by norm_num)
  have hv : nearRaw (11 / 8) (seriesZ (a + 2 ^ 28)) (taylorTail y) :=
    (ha.add (ht.roundAway (d := 2) (by norm_num))).mono (by norm_num)
  have bc : |Real.exp (-1 / 8)| ≤ 1 := by
    rw [Real.abs_exp]
    linarith [exp_neg_eighth_bounds.2]
  rw [exprZ_eq, mul_add, mul_one]
  exact (nearRaw_expC.add (nearRaw_expC.mul hv bc bv)).mono (by norm_num)

end

/-- Settles O37: the error of the Taylor polynomial at the scale of `e^(-1/8)`, and the three units of the roundings. -/
theorem exprNearExponential : Obligations.ExprNearExponential := by
  intro a hlo hhi
  have hexact := nearRaw_exact (a.toInt + 2 ^ 28)
  set y : ℝ := ((a.toInt + 2 ^ 28 : Int) : ℝ) / 2 ^ 31 with hydef
  have hy : |y| ≤ 1 / 8 := by
    have hx : |((a.toInt + 2 ^ 28 : Int) : ℝ)| ≤ 2 ^ 28 := by exact_mod_cast abs_le.mpr (by omega)
    rw [hydef, abs_div, abs_of_pos (by norm_num : (0 : ℝ) < 2 ^ 31), div_le_iff₀ (by norm_num)]
    exact hx.trans (by norm_num)
  have hexp : Real.exp ((a.toInt : ℝ) / 2 ^ 31) = Real.exp (-1 / 8) * Real.exp y := by
    rw [← Real.exp_add, hydef]
    push_cast
    ring_nf
  have hround : nearRaw 3 (exprZ a.toInt) _ := nearRaw_exprZ hy hexact
  have htaylor : |2 ^ 31 * (Real.exp (-1 / 8) * (1 + taylorTail y)) - 2 ^ 31 * (Real.exp (-1 / 8) * Real.exp y)| ≤
      597 := by
    have hscale := abs_mul_le_mul_real ((Real.abs_exp _).trans_le exp_neg_eighth_bounds.2) (abs_taylor_sub_exp_le hy)
    rw [← mul_sub, ← mul_sub, abs_mul, abs_of_pos (by norm_num : (0 : ℝ) < 2 ^ 31)]
    linarith
  rw [expr_toInt hlo hhi, hexp]
  exact (abs_sub_le _ _ _).trans ((add_le_add hround htaylor).trans (by norm_num))

end Sys2Proof.Machine

/-! The statements of 43_exp.md and 95_test_vectors.md about `EXPN`: its result (R108 (a)), the reduction (R102), the clamp
(R105), the zero input (R106), its sign and order (R108 (b) and (c)), and program P2. -/

namespace Sys2Proof.Machine

/-! ### The result -/

/-- R101: an operand and a format in contract are answered with the result. -/
theorem answerInstr_expn {a : Word} {k : Imm6} (hlo : 0 ≤ k.toInt) (hhi : k.toInt ≤ 29) (ha : a.toInt ≤ 0) :
    answerInstr (.expn a k) = .ok (expn a k.toNat) := by
  have hk : (immValue k).toNat = k.toNat := by
    rw [immValue, immediate_toInt_of_nonneg hlo, Int.toNat_natCast]
  have hcheck : expnCheck a k = none := by
    rw [expnCheck, immValue, if_neg (by omega), if_neg (by omega)]
  rw [answerInstr, hcheck, answerOf_none, hk]

/-- Settles O22: in contract the check is passed, and the answer is the ladder's. -/
theorem expnResult : Obligations.ExpnResult := by
  intro a k s hlo hhi ha
  have hnat := immediate_toInt_of_nonneg hlo
  exact ⟨_, exec_of_answerInstr_ok (answerInstr_expn hlo hhi ha) s, expn_toInt (by omega) ha⟩

/-! ### The reduction, the clamp and the zero input -/

/-- Settles O39: what is removed is `quartersZ` quarters, minus one of them for a zero operand. -/
theorem expnReductionStaysInDomain : Obligations.ExpnReductionStaysInDomain := by
  intro a k hk ha
  obtain ⟨hlo, hhi⟩ := add_quartersZ_mul_bounds a.toInt k
  obtain ⟨hlo0, hhi0⟩ := quartersZ_q0_bounds a.toInt hk
  have hbounds := toInt_bounds a
  have hq := two_pow_quarter_le k
  have ham := expnReduced_toInt a k
  have ha0 := srmulpot_expnReduced_toInt a hk
  rw [← ham] at hlo hhi ha0 hlo0 hhi0
  have hupper : (expnReduced a k).toInt * 2 ^ k ≤ -2 ^ k :=
    (mul_le_mul_of_nonneg_right hhi (by positivity)).trans_eq (neg_one_mul _)
  refine ⟨hlo, hhi, ha0, by omega, by omega, exprCheck_eq_none (by omega) (by omega), quartersZ a.toInt k + 1, ?_, ?_⟩
  · exact sub32_toInt (by omega) (by omega)
  · rw [ham]
    ring

/-- Settles O40: below the threshold the integer form is its second case. -/
theorem expnClampsToZero : Obligations.ExpnClampsToZero := by
  intro a k h6 hk hclamp
  have hpos : (0 : Int) < 2 ^ (36 - k) := by positivity
  refine word_eq_of_toInt ?_
  rw [expn_toInt hk (by omega), expnZ, if_neg (by omega), if_pos ⟨h6, (clamp_iff _ hk).mp hclamp⟩, BitVec.toInt_zero]

/-- Settles O41: the zero operand is the first case of the integer form. -/
theorem expnOfZero : Obligations.ExpnOfZero := fun k hk => word_eq_of_toInt (expn_toInt hk (by decide))

/-! ### The ladder as a function of the quarters removed and of what `EXPR` gave -/

/-- The ladder keeps the order of what it starts from, and looks at no bit of the quarters below its first rung. -/
theorem ladderZ_le_ladderZ (k : Nat) {m m' j : Nat} {mults : List Int} (hmults : ∀ mult ∈ mults, 0 ≤ mult)
    (hm : m / 2 ^ j = m' / 2 ^ j) {r r' : Int} (hr : r ≤ r') : ladderZ k m j mults r ≤ ladderZ k m' j mults r' := by
  induction mults generalizing j r r' with
  | nil => exact hr
  | cons mult rest ih =>
    obtain ⟨hmult, hrest⟩ := List.forall_mem_cons.mp hmults
    have hnext : m / 2 ^ (j + 1) = m' / 2 ^ (j + 1) := by
      rw [pow_succ, ← Nat.div_div_eq_div_mul, hm, Nat.div_div_eq_div_mul]
    rw [ladderZ, ladderZ, hm]
    refine ih hrest hnext ?_
    split
    · exact roundUp_le_roundUp (mul_le_mul_of_nonneg_right hr hmult)
    · exact hr

theorem ladderZ_nonneg (k m : Nat) {j : Nat} {mults : List Int} (hmults : ∀ mult ∈ mults, 0 ≤ mult) {r : Int}
    (hr : 0 ≤ r) : 0 ≤ ladderZ k m j mults r := by
  induction mults generalizing j r with
  | nil => exact hr
  | cons mult rest ih =>
    obtain ⟨hmult, hrest⟩ := List.forall_mem_cons.mp hmults
    rw [ladderZ]
    refine ih hrest ?_
    split
    · exact roundUp_le_roundUp (mul_nonneg hr hmult)
    · exact hr

/-- Adding a quarter carries through the rungs whose bits are set and sets the bit above them: at each rung, the multiplier
makes of `hi` no more than the rungs before it made of `lo`. -/
def carriesDown (hi : Int) : List Int → Int → Prop
  | [], _ => True
  | mult :: rest, lo => roundUp (hi * mult) (2 ^ 31) ≤ lo ∧ carriesDown hi rest (roundUp (lo * mult) (2 ^ 31))

/-- R108 (c), across a border of quarters: the carry, rung by rung. -/
theorem ladderZ_succ_le {k m m' : Nat} (hk : m' < 2 ^ (k + 2)) {j n : Nat} {mults : List Int}
    (hmults : ∀ mult ∈ mults, 0 ≤ mult) (hm : m / 2 ^ j = n) (hm' : m' / 2 ^ j = n + 1) (hlen : n + 1 < 2 ^ mults.length)
    {hi lo : Int} (hcarry : carriesDown hi mults lo) : ladderZ k m' j mults hi ≤ ladderZ k m j mults lo := by
  induction mults generalizing j n lo with
  | nil => exact absurd hlen (by simp)
  | cons mult rest ih =>
    obtain ⟨hmult, hrest⟩ := List.forall_mem_cons.mp hmults
    obtain ⟨hle, hcarry'⟩ := hcarry
    have hadmitted : j < k + 2 := by
      have hj : 2 ^ j ≤ m' := (Nat.div_pos_iff.mp (by omega : 0 < m' / 2 ^ j)).2
      exact (Nat.pow_lt_pow_iff_right (by norm_num)).mp (hj.trans_lt hk)
    have hnext : m / 2 ^ (j + 1) = n / 2 := by rw [pow_succ, ← Nat.div_div_eq_div_mul, hm]
    have hnext' : m' / 2 ^ (j + 1) = (n + 1) / 2 := by rw [pow_succ, ← Nat.div_div_eq_div_mul, hm']
    rw [List.length_cons, pow_succ] at hlen
    rw [ladderZ, ladderZ, hm, hm']
    rcases Nat.mod_two_eq_zero_or_one n with hbit | hbit
    · rw [if_pos ⟨hadmitted, by omega⟩, if_neg (by omega)]
      exact ladderZ_le_ladderZ k hrest (by omega) hle
    · rw [if_neg (by omega), if_pos ⟨hadmitted, hbit⟩]
      exact ih hrest hnext (by omega) (by omega) hcarry'

/-! ### Sign and order -/

theorem multipliersZ_nonneg : ∀ mult ∈ multipliersZ, 0 ≤ mult := fun mult h => (multipliersZ_bounds mult h).1

/-- R100: the whole ladder, from what `EXPR` gave for the reduced argument and the number of quarters removed. -/
def recombineZ (k m : Nat) (r : Int) : Int := ladderZ k m 0 multipliersZ r

theorem recombineZ_mono (k m : Nat) {r r' : Int} (hr : r ≤ r') : recombineZ k m r ≤ recombineZ k m r' :=
  ladderZ_le_ladderZ k multipliersZ_nonneg rfl hr

/-- R103: the seven multipliers carry the top of the range of `EXPR` below its bottom. -/
theorem multipliersZ_carriesDown : carriesDown (exprZ (-1)) multipliersZ (exprZ (-2 ^ 29)) := by
  rw [exprZ_lower_end, exprZ_upper_end]
  norm_num [carriesDown, multipliersZ, roundUp]

/-- R102: `EXPR` of the reduced argument. -/
def reducedZ (a : Int) (k : Nat) : Int := exprZ ((a + quartersZ a k * 2 ^ (29 - k)) * 2 ^ k)

/-- R100: short of the clamp and the zero input `EXPN` is the ladder over `EXPR` of the reduced argument. -/
theorem expnZ_eq_recombineZ {a : Int} {k : Nat} (h0 : a ≠ 0) (hclamp : ¬(k > 5 ∧ a * 2 ^ k < -(2 ^ 36))) :
    expnZ a k = recombineZ k (quartersZ a k).toNat (reducedZ a k) := by
  rw [expnZ, if_neg h0, if_neg hclamp]
  rfl

theorem reducedZ_bounds (a : Int) {k : Nat} (hk : k ≤ 29) :
    exprZ (-2 ^ 29) ≤ reducedZ a k ∧ reducedZ a k ≤ exprZ (-1) := by
  obtain ⟨hlo, hhi⟩ := quartersZ_q0_bounds a hk
  exact ⟨exprZ_le_exprZ le_rfl hlo hhi, exprZ_le_exprZ hlo hhi le_rfl⟩

/-- R108 (b) over the integers. -/
theorem expnZ_nonneg (a : Int) {k : Nat} (hk : k ≤ 29) : 0 ≤ expnZ a k := by
  by_cases h0 : a = 0
  · rw [expnZ, if_pos h0]
    norm_num
  by_cases hclamp : k > 5 ∧ a * 2 ^ k < -(2 ^ 36)
  · rw [expnZ, if_neg h0, if_pos hclamp]
  · rw [expnZ_eq_recombineZ h0 hclamp]
    have hpos : 0 ≤ exprZ (-2 ^ 29) := by rw [exprZ_lower_end]; norm_num
    exact ladderZ_nonneg _ _ multipliersZ_nonneg (hpos.trans (reducedZ_bounds a hk).1)

/-- Settles O42. -/
theorem expnIsNeverNegative : Obligations.ExpnIsNeverNegative := by
  intro a k hk ha
  rw [expn_toInt hk ha]
  exact expnZ_nonneg _ hk

/-- Settles O47: the result of `EXPN` passes the check of `RCP1PX`, not being negative. -/
theorem expnThenRcp1pxNeverFaults : Obligations.ExpnThenRcp1pxNeverFaults := by
  intro a k hlo hhi ha
  have hnat := immediate_toInt_of_nonneg hlo
  have hcheck : rcp1pxCheck (expn a k.toNat) = none :=
    if_neg (not_lt.mpr (expnIsNeverNegative a k.toNat (by omega) ha))
  refine ⟨expn a k.toNat, rcp1px (expn a k.toNat), ?_, ?_⟩
  · rw [answerRequest_encode, answerInstr_expn hlo hhi ha]
  · rw [answerRequest_encode, answerInstr, hcheck, answerOf_none]

/-- R104: of a word that is not clamped, the ladder's rungs and their guards cover all the quarters removed. -/
theorem quartersZ_lt {a : Int} {k : Nat} (hk : k ≤ 29) (hmin : -2 ^ 31 ≤ a)
    (hclamp : ¬(k > 5 ∧ a * 2 ^ k < -(2 ^ 36))) : quartersZ a k < 2 ^ (k + 2) ∧ quartersZ a k < 2 ^ 7 := by
  have hq : (0 : Int) < 2 ^ (29 - k) := by positivity
  have hguard : quartersZ a k < 2 ^ (k + 2) := by
    have hpow : (2 : Int) ^ (k + 2) * 2 ^ (29 - k) = 2 ^ 31 := by rw [← pow_add]; congr 1; omega
    exact Int.ediv_lt_of_lt_mul hq (by rw [hpow]; omega)
  refine ⟨hguard, ?_⟩
  rcases le_or_gt k 5 with hsmall | hlarge
  · exact hguard.trans_le (pow_le_pow_right₀ (by norm_num) (by omega))
  · have hpow : (2 : Int) ^ 7 * 2 ^ (29 - k) = 2 ^ (36 - k) := by rw [← pow_add]; congr 1; omega
    have hthreshold : ¬a < -2 ^ (36 - k) := fun h => hclamp ⟨hlarge, (clamp_iff a hk).mp h⟩
    exact Int.ediv_lt_of_lt_mul hq (by rw [hpow]; omega)

/-- R108 (c), one quarter apart. -/
theorem recombineZ_succ_le {k m : Nat} (hk : m + 1 < 2 ^ (k + 2)) (h7 : m + 1 < 2 ^ 7) :
    recombineZ k (m + 1) (exprZ (-1)) ≤ recombineZ k m (exprZ (-2 ^ 29)) :=
  ladderZ_succ_le hk multipliersZ_nonneg (by simp) (by simp) h7 multipliersZ_carriesDown

/-- R108 (c), any number of quarters apart: the most that the ladder makes of the more quarters is no more than the least it
makes of the fewer. -/
theorem recombineZ_le_of_lt {k m m' : Nat} (hlt : m < m') (hk : m' < 2 ^ (k + 2)) (h7 : m' < 2 ^ 7) :
    recombineZ k m' (exprZ (-1)) ≤ recombineZ k m (exprZ (-2 ^ 29)) := by
  induction m', hlt using Nat.le_induction with
  | base => exact recombineZ_succ_le hk h7
  | succ n hmn ih =>
    calc recombineZ k (n + 1) (exprZ (-1))
      _ ≤ recombineZ k n (exprZ (-2 ^ 29)) := recombineZ_succ_le hk h7
      _ ≤ recombineZ k n (exprZ (-1)) := recombineZ_mono k _ (exprZ_le_exprZ le_rfl (by norm_num) le_rfl)
      _ ≤ recombineZ k m (exprZ (-2 ^ 29)) := ih (by omega) (by omega)

/-- R108 (c) over the integers, short of the clamp and the zero input: by how many quarters lie between. -/
theorem recombineZ_reducedZ_le {a a' : Int} {k : Nat} (hk : k ≤ 29) (hmin : -2 ^ 31 ≤ a) (hle : a ≤ a') (ha' : a' < 0)
    (hclamp : ¬(k > 5 ∧ a * 2 ^ k < -(2 ^ 36))) :
    recombineZ k (quartersZ a k).toNat (reducedZ a k) ≤ recombineZ k (quartersZ a' k).toNat (reducedZ a' k) := by
  have hm : quartersZ a' k ≤ quartersZ a k := Int.ediv_le_ediv (by positivity) (by omega)
  have hm' := quartersZ_nonneg k ha'
  rcases hm.eq_or_lt with heq | hlt
  · obtain ⟨hlo, -⟩ := quartersZ_q0_bounds a hk
    obtain ⟨-, hhi⟩ := quartersZ_q0_bounds a' hk
    rw [← heq]
    refine recombineZ_mono k _ (exprZ_le_exprZ hlo ?_ hhi)
    exact mul_le_mul_of_nonneg_right (by rw [heq]; omega) (by positivity)
  · obtain ⟨hguard, h7⟩ := quartersZ_lt hk hmin hclamp
    calc recombineZ k (quartersZ a k).toNat (reducedZ a k)
      _ ≤ recombineZ k (quartersZ a k).toNat (exprZ (-1)) := recombineZ_mono k _ (reducedZ_bounds a hk).2
      _ ≤ recombineZ k (quartersZ a' k).toNat (exprZ (-2 ^ 29)) := by
        refine recombineZ_le_of_lt (by omega) ?_ (by omega)
        zify
        omega
      _ ≤ recombineZ k (quartersZ a' k).toNat (reducedZ a' k) := recombineZ_mono k _ (reducedZ_bounds a' hk).1

/-- Settles O43: the zero input has the greatest result and the clamp the least, and the ladder lies between. -/
theorem expnMonotone : Obligations.ExpnMonotone := by
  intro a a' k hk hle ha'
  have ha := hle.trans ha'
  by_cases h0 : a'.toInt = 0
  · rw [expn_toInt hk ha', expnZ, if_pos h0]
    exact (toInt_bounds _).2
  rw [expn_toInt hk ha, expn_toInt hk ha']
  by_cases hclamp : k > 5 ∧ a.toInt * 2 ^ k < -(2 ^ 36)
  · rw [expnZ, if_neg (by omega), if_pos hclamp]
    exact expnZ_nonneg _ hk
  · have hclamp' : ¬(k > 5 ∧ a'.toInt * 2 ^ k < -(2 ^ 36)) := fun ⟨h5, h⟩ =>
      hclamp ⟨h5, (mul_le_mul_of_nonneg_right hle (by positivity)).trans_lt h⟩
    rw [expnZ_eq_recombineZ (by omega) hclamp, expnZ_eq_recombineZ h0 hclamp']
    exact recombineZ_reducedZ_le hk (toInt_bounds a).1 hle (by omega) hclamp

end Sys2Proof.Machine

/-! The statements of 44_reciprocal.md: the result of `RCP1PX` (R115, R118 (a)), its error (R118 (c)), where it saturates
(R115, R118 (a)), and that it is not decreasing everywhere (R118 (d)). -/

namespace Sys2Proof.Machine

/-! ### The result -/

/-- Settles O23: a non-negative operand passes the check, and the answer is the refined seed. -/
theorem rcp1pxResult : Obligations.Rcp1pxResult := by
  intro a s h
  have hcheck : rcp1pxCheck a = none := if_neg (not_lt.mpr h)
  have hanswer : answerInstr (.rcp1px a) = .ok (rcp1px a) := by rw [answerInstr, hcheck, answerOf_none]
  exact ⟨rcp1px a, exec_of_answerInstr_ok hanswer s, rcp1px_toInt h⟩

/-! ### The residual of the refined seed -/

/-- The estimate of the reciprocal of `hd`, a raw of `Q2`, after the three iterations of R115. -/
def refinedZ (hd : Int) : Int := (newtonZ hd)^[3] (seedZ hd)

/-- A Newton iteration squares a residual of at most `E` and adds, for its two roundings, at most half a unit of `hd * x` and
two of `hd`. -/
theorem newtonZ_residual_bounds {hd x E : Int} (h0 : 0 ≤ hd) (h : |2 ^ 60 - hd * x| ≤ E) :
    -(2 ^ 30 * (2 ^ 60 + E) + 2 ^ 61 * hd) ≤ 2 ^ 60 * (2 ^ 60 - hd * newtonZ hd x) ∧
    2 ^ 60 * (2 ^ 60 - hd * newtonZ hd x) ≤ E ^ 2 + 2 ^ 30 * (2 ^ 60 + E) + 2 ^ 61 * hd := by
  obtain ⟨r, r', hr, hr', hres⟩ := newtonZ_residual hd x
  have hsq0 := sq_nonneg (2 ^ 60 - hd * x)
  have hsq : (2 ^ 60 - hd * x) ^ 2 ≤ E ^ 2 := sq_le_sq' (neg_le_of_abs_le h) (le_of_abs_le h)
  have hhdx : |hd * x| ≤ 2 ^ 60 + E := by
    obtain ⟨hl, hu⟩ := abs_le.mp h
    exact abs_le.mpr ⟨by omega, by omega⟩
  obtain ⟨hl, hu⟩ := abs_le.mp (abs_mul_le_mul hhdx hr)
  obtain ⟨hl', hu'⟩ := abs_le.mp (abs_mul_le_mul (abs_of_nonneg h0).le hr')
  exact ⟨by linarith, by linarith⟩

/-- The last iteration squares a residual of about one part in `2^16`, so that little more than its roundings is left. -/
theorem refinedZ_residual_bounds {hd : Int} (hlo : 2 ^ 30 ≤ hd) (hhi : hd < 2 ^ 31) :
    -(2 ^ 30 + 2 ^ 15 + 2 * hd) ≤ 2 ^ 60 - hd * refinedZ hd ∧
    2 ^ 60 - hd * refinedZ hd ≤ 2 ^ 28 + 2 ^ 30 + 2 ^ 19 + 2 * hd := by
  have h0 : 0 ≤ hd := by omega
  obtain ⟨hl₁, hu₁⟩ := newtonZ_residual_bounds h0 (seedZ_nearReciprocal hlo hhi)
  have h₁ : |2 ^ 60 - hd * newtonZ hd (seedZ hd)| ≤ 2 ^ 52 + 2 ^ 33 := abs_le.mpr ⟨by linarith, by linarith⟩
  obtain ⟨hl₂, hu₂⟩ := newtonZ_residual_bounds h0 h₁
  have h₂ : |2 ^ 60 - hd * newtonZ hd (newtonZ hd (seedZ hd))| ≤ 2 ^ 44 + 2 ^ 33 :=
    abs_le.mpr ⟨by linarith, by linarith⟩
  obtain ⟨hl₃, hu₃⟩ := newtonZ_residual_bounds h0 h₂
  simp only [refinedZ, Function.iterate_succ_apply, Function.iterate_zero_apply]
  exact ⟨by linarith, by linarith⟩

theorem refinedZ_bounds {hd : Int} (hlo : 2 ^ 30 ≤ hd) (hhi : hd < 2 ^ 31) :
    0 ≤ refinedZ hd ∧ refinedZ hd ≤ 2 ^ 30 + 4 := by
  obtain ⟨hl, hu⟩ := refinedZ_residual_bounds hlo hhi
  refine ⟨((mul_pos_iff_of_pos_left (by omega : 0 < hd)).mp (by omega)).le, ?_⟩
  by_contra hlarge
  have hmul : hd * (2 ^ 30 + 5) ≤ hd * refinedZ hd := mul_le_mul_of_nonneg_left (by omega) (by omega)
  omega

/-! ### The result as the doubled estimate -/

/-- R115: for a non-negative operand `(a + 1)/2` is the half of the operand, rounded down, above `2^30`. -/
theorem rhsumZ_int32Max_of_nonneg {a : Int} (h : 0 ≤ a) : rhsumZ a 2147483647 = 2 ^ 30 + a / 2 := by
  rw [rhsumZ, roundAway, if_pos (by omega)]
  omega

/-- R118 (a): the result is the refined estimate doubled, and clamped from above alone. -/
theorem rcp1px_toInt_eq_min {a : Word} (h : 0 ≤ a.toInt) :
    (rcp1px a).toInt = min (2 * refinedZ (2 ^ 30 + a.toInt / 2)) 2147483647 := by
  have hmax := (toInt_bounds a).2
  obtain ⟨hpos, -⟩ := refinedZ_bounds (hd := 2 ^ 30 + a.toInt / 2) (by omega) (by omega)
  rw [rcp1px_toInt h, rcp1pxZ_eq, rhsumZ_int32Max_of_nonneg h, ← refinedZ, sat32]
  split_ifs <;> omega

/-! ### The error -/

/-- A number at most 8 units from `2^62 / d`, itself at most `2^31`, is so as well when clamped to `2^31 - 1`. -/
theorem abs_min_mul_sub_le {n d : Int} (hd : 2 ^ 31 ≤ d) (h : |n * d - 2 ^ 62| ≤ 8 * d) :
    |min n 2147483647 * d - 2 ^ 62| ≤ 8 * d := by
  obtain ⟨hl, hu⟩ := abs_le.mp h
  rcases le_total n 2147483647 with hn | hn
  · rwa [min_eq_left hn]
  · have hmul : 2147483647 * d ≤ n * d := mul_le_mul_of_nonneg_right hn (by omega)
    rw [min_eq_right hn]
    exact abs_le.mpr ⟨by omega, by omega⟩

/-- The halved denominator drops the last bit of an odd operand, which weighs one estimate more. -/
theorem abs_two_mul_refinedZ_mul_sub_le {a : Int} (h0 : 0 ≤ a) (hmax : a < 2 ^ 31) :
    |2 * refinedZ (2 ^ 30 + a / 2) * (2 ^ 31 + a) - 2 ^ 62| ≤ 8 * (2 ^ 31 + a) := by
  generalize hhd : 2 ^ 30 + a / 2 = hd
  obtain ⟨hl, hu⟩ := refinedZ_residual_bounds (hd := hd) (by omega) (by omega)
  obtain ⟨hpos, hle⟩ := refinedZ_bounds (hd := hd) (by omega) (by omega)
  rcases Int.emod_two_eq_zero_or_one a with heven | hodd
  · have hsplit : 2 * refinedZ hd * (2 ^ 31 + a) = 4 * (hd * refinedZ hd) := by
      rw [show 2 ^ 31 + a = 2 * hd by omega]
      ring
    rw [hsplit]
    exact abs_le.mpr ⟨by omega, by omega⟩
  · have hsplit : 2 * refinedZ hd * (2 ^ 31 + a) = 4 * (hd * refinedZ hd) + 2 * refinedZ hd := by
      rw [show 2 ^ 31 + a = 2 * hd + 1 by omega]
      ring
    rw [hsplit]
    exact abs_le.mpr ⟨by omega, by omega⟩

/-- Settles O44: the doubled estimate is as near, and the clamp does not take it further away. -/
theorem rcp1pxNearReciprocal : Obligations.Rcp1pxNearReciprocal := by
  intro a h
  have hmax := (toInt_bounds a).2
  rw [rcp1px_toInt_eq_min h]
  exact abs_min_mul_sub_le (by omega) (abs_two_mul_refinedZ_mul_sub_le h (by omega))

/-! ### Saturation -/

/-- The doubling saturates for the two least denominators: the next two are computed, and from there on the error of the
estimate is less than its distance from `2^30`. -/
theorem two_pow_30_le_refinedZ_iff {h : Int} (h0 : 0 ≤ h) (hmax : h < 2 ^ 30) :
    2 ^ 30 ≤ refinedZ (2 ^ 30 + h) ↔ h ≤ 1 := by
  rcases lt_or_ge h 4 with hsmall | hlarge
  · have hcomputed : ∀ n : Fin 4, 2 ^ 30 ≤ refinedZ (2 ^ 30 + n.val) ↔ (n.val : Int) ≤ 1 := by decide
    lift h to Nat using h0
    exact hcomputed ⟨h, by omega⟩
  · obtain ⟨hl, -⟩ := refinedZ_residual_bounds (hd := 2 ^ 30 + h) (by omega) (by omega)
    refine iff_of_false (fun hsat => ?_) (by omega)
    have hmul : (2 ^ 30 + h) * 2 ^ 30 ≤ (2 ^ 30 + h) * refinedZ (2 ^ 30 + h) :=
      mul_le_mul_of_nonneg_left hsat (by omega)
    omega

/-- Settles O45: the clamp is reached when the estimate is 2 or more. -/
theorem rcp1pxSaturatesForFourOperands : Obligations.Rcp1pxSaturatesForFourOperands := by
  intro a h
  have hmax := (toInt_bounds a).2
  have hiff := two_pow_30_le_refinedZ_iff (h := a.toInt / 2) (by omega) (by omega)
  have hvalue := rcp1px_toInt_eq_min h
  calc rcp1px a = int32Max
    _ ↔ (rcp1px a).toInt = 2147483647 := by rw [← int32Max_toInt]; exact BitVec.toInt_inj.symm
    _ ↔ 2 ^ 30 ≤ refinedZ (2 ^ 30 + a.toInt / 2) := by omega
    _ ↔ a.toInt ≤ 3 := by omega

/-! ### Order -/

/-- Settles O46: the operands 214581 and 214582, the results 2147269086 and 2147269092. -/
theorem rcp1pxIsNotMonotone : Obligations.Rcp1pxIsNotMonotone := by
  refine ⟨214581, 214582, by decide, by decide, ?_⟩
  have hresult : (rcp1px 214581).toInt = 2147269086 := by
    rw [rcp1px_toInt_eq_min (by decide)]
    decide
  have hresult' : (rcp1px 214582).toInt = 2147269092 := by
    rw [rcp1px_toInt_eq_min (by decide)]
    decide
  omega

end Sys2Proof.Machine

/-! The statements of 60_exceptions.md: which requests are answered with each fault (R132, R135), and that a fault is its own
response and nothing more (R131, R137). -/

namespace Sys2Proof.Machine

/-! ### The conditions of the faults -/

/-- The condition of R132 under which a command with a legal word is answered with a violation, by its opcode, its immediate
and its first operand; the conditions on an operand hold only where the immediate is in range (R135). -/
def violates : Violation → Nat → Int → Int → Prop
  | .illegalCommand, _, _, _ => False
  | .invalidExponent, op, imm, _ => op = 3 ∧ imm < 0 ∨ op = 4 ∧ imm = -32
  | .invalidFormat, op, imm, _ => op = 8 ∧ (imm < 0 ∨ imm > 29)
  | .outOfDomain, op, imm, a =>
    op = 7 ∧ imm = 0 ∧ (a < -2 ^ 29 ∨ a ≥ 0) ∨ op = 8 ∧ 0 ≤ imm ∧ imm ≤ 29 ∧ a > 0 ∨ op = 9 ∧ imm = 0 ∧ a < 0

theorem answerOf_eq_fault_iff {check : Option Violation} {r : Word} {v : Violation} :
    answerOf check r = .fault v ↔ check = some v := by
  cases check with
  | none => simp
  | some w => simp

/-- A check with one condition gives its one violation, and gives it under the condition. -/
theorem ite_some_eq_some_iff {c : Prop} [Decidable c] {v w : Violation} :
    (if c then some w else none) = some v ↔ c ∧ w = v := by
  by_cases hc : c
  · simp [hc]
  · simp [hc]

theorem rdivpotCheck_eq_some_iff (a : Int) (e : Imm6) (v : Violation) :
    rdivpotCheck e = some v ↔ violates v 3 (immValue e) a := by
  rw [rdivpotCheck, ite_some_eq_some_iff]
  cases v <;> simp [violates]

theorem srmulpotCheck_eq_some_iff (a : Int) (e : Imm6) (v : Violation) :
    srmulpotCheck e = some v ↔ violates v 4 (immValue e) a := by
  rw [srmulpotCheck, ite_some_eq_some_iff]
  cases v <;> simp [violates]

theorem exprCheck_eq_some_iff (a : Word) (v : Violation) : exprCheck a = some v ↔ violates v 7 0 a.toInt := by
  rw [exprCheck, ← ite_not, ite_some_eq_some_iff]
  cases v <;> simp [violates]
  omega

/-- R135: the format is checked before the operand. -/
theorem expnCheck_eq_some_iff (a : Word) (k : Imm6) (v : Violation) :
    expnCheck a k = some v ↔ violates v 8 (immValue k) a.toInt := by
  unfold expnCheck
  split
  · next hk =>
    cases v with
    | illegalCommand | invalidExponent => simp [violates]
    | invalidFormat => exact iff_of_true rfl ⟨rfl, hk⟩
    | outOfDomain => simp [violates]; omega
  · next hk =>
    rw [ite_some_eq_some_iff]
    cases v with
    | illegalCommand | invalidExponent => simp [violates]
    | invalidFormat => simp [violates]; omega
    | outOfDomain => simp [violates]; omega

theorem rcp1pxCheck_eq_some_iff (a : Word) (v : Violation) : rcp1pxCheck a = some v ↔ violates v 9 0 a.toInt := by
  rw [rcp1pxCheck, ite_some_eq_some_iff]
  cases v <;> simp [violates]

/-- The opcodes of R132 are the only ones with a check after decoding. -/
theorem not_violates {op : Nat} (hop : op ∉ [3, 4, 7, 8, 9]) (v : Violation) (imm a : Int) : ¬violates v op imm a := by
  simp only [List.mem_cons, List.not_mem_nil, or_false, not_or] at hop
  cases v <;> simp [violates, hop]

/-- R132: a decoded command is answered with a violation under the condition of its row. -/
theorem answerInstr_eq_fault_iff (i : Instr) (v : Violation) :
    answerInstr i = .fault v ↔ violates v i.opcode.toNat (immValue i.immediate) (encode i).a.toInt := by
  cases i with
  | maskz | masknz | sel | rhsum | fpmul => exact iff_of_false nofun (not_violates (by simp [Instr.opcode]) v _ _)
  | rdivpot x e => exact answerOf_eq_fault_iff.trans (rdivpotCheck_eq_some_iff _ e v)
  | srmulpot x e => exact answerOf_eq_fault_iff.trans (srmulpotCheck_eq_some_iff _ e v)
  | expr a => exact answerOf_eq_fault_iff.trans (exprCheck_eq_some_iff a v)
  | expn a k => exact answerOf_eq_fault_iff.trans (expnCheck_eq_some_iff a k v)
  | rcp1px a => exact answerOf_eq_fault_iff.trans (rcp1pxCheck_eq_some_iff a v)

/-- R45: a word malformed by its opcode or its immediate is in none of the conditions. -/
theorem not_violates_of_decode_error {q : Request} (h : ∃ e, decode q = .error e) (hrsv : rsvOf q.cw = 0)
    (v : Violation) : ¬violates v (opOf q.cw) (immOf q.cw) q.a.toInt := by
  have himm := immOf_eq_zero_iff q.cw
  rw [decode_eq_error_iff, ← rsvOf, ← opOf, ne_eq, ne_eq, ← himm] at h
  simp only [List.mem_cons, List.not_mem_nil, or_false] at h
  cases v with
  | illegalCommand => exact id
  | invalidExponent | invalidFormat | outOfDomain => rw [violates]; omega

/-- R132, R135: the fault of a request, other than that of a malformed word, by its fields. -/
theorem answerRequest_eq_fault_iff (q : Request) {v : Violation} (hv : v ≠ .illegalCommand) :
    answerRequest q = .fault v ↔ rsvOf q.cw = 0 ∧ violates v (opOf q.cw) (immOf q.cw) q.a.toInt := by
  cases hd : decode q with
  | error e =>
    rw [answerRequest_of_decode_error hd]
    refine iff_of_false (fun h => hv (Answer.fault.inj h).symm) ?_
    exact fun ⟨hrsv, hviol⟩ => not_violates_of_decode_error ⟨e, hd⟩ hrsv v hviol
  | ok i =>
    obtain ⟨hcw, ha, _, _⟩ := readsAs_of_decode hd
    rw [answerRequest_of_decode_ok hd, answerInstr_eq_fault_iff, hcw, ha, opOf_encode, immOf_encode, rsvOf_encode]
    exact (and_iff_right rfl).symm

/-- Settles O6: `violates` of each violation is its condition. -/
theorem faultsInExactlyTheirConditions : Obligations.FaultsInExactlyTheirConditions := fun q =>
  ⟨answerRequest_eq_fault_iff q nofun, answerRequest_eq_fault_iff q nofun, answerRequest_eq_fault_iff q nofun⟩

/-! ### What a fault does -/

/-- A command in the condition of a fault delivers the fault, and the rest of the state is as it was (R131). -/
theorem exec_of_violates {i : Instr} {v : Violation}
    (h : violates v i.opcode.toNat (immValue i.immediate) (encode i).a.toInt) (s : State) :
    ∃ r : Word, exec i s = .next { s with delivered := s.delivered ++ [⟨s.serving, ⟨r, v.status⟩⟩] } := by
  rw [exec_eq_respond, (answerInstr_eq_fault_iff i v).mpr h]
  exact ⟨Config.unspecifiedResult s.turn, rfl⟩

/-- Settles O24: each clause is one of the alternatives of `violates`. -/
theorem contractViolationsAreAnswered : Obligations.ContractViolationsAreAnswered := fun a imm s =>
  ⟨fun h => exec_of_violates (i := .rdivpot a imm) (v := .invalidExponent) (.inl ⟨rfl, h⟩) s,
    fun h => exec_of_violates (i := .srmulpot a imm) (v := .invalidExponent) (.inr ⟨rfl, h⟩) s,
    fun h => exec_of_violates (i := .expn a imm) (v := .invalidFormat) ⟨rfl, h⟩ s,
    fun hlo hhi h => exec_of_violates (i := .expn a imm) (v := .outOfDomain) (.inr (.inl ⟨rfl, hlo, hhi, h⟩)) s,
    fun h => exec_of_violates (i := .expr a) (v := .outOfDomain) (.inl ⟨rfl, rfl, h⟩) s,
    fun h => exec_of_violates (i := .rcp1px a) (v := .outOfDomain) (.inr (.inr ⟨rfl, rfl, h⟩)) s⟩

/-! ### Statuses -/

theorem Response.st_of_read_ok {p : Response} {r : Word} (h : p.read = .ok r) : p.st = .ok := by
  obtain ⟨w, st⟩ := p
  cases st with
  | ok => rfl
  | illegalCommand | invalidExponent | invalidFormat | outOfDomain => cases h

/-- A response that reads as a fault has its status, and some `R` (R131). -/
theorem Response.eq_of_read_fault {p : Response} {v : Violation} (h : p.read = .fault v) : p = ⟨p.r, v.status⟩ := by
  obtain ⟨w, st⟩ := p
  cases st with
  | ok => cases h
  | illegalCommand | invalidExponent | invalidFormat | outOfDomain => cases h; rfl

/-! ### Faults in runs -/

/-- An idle FXC that is issued a request answers it in its next step, and is idle again. -/
theorem runEvents_issue_serve {s : State} (hs : s.pending = []) (r : Nat) (q : Request) :
    ∃ p : Response, p.read = answerRequest q ∧ ∀ es : List HostEvent,
      runEvents (.issue r q :: .serve :: es) s = runEvents es
        { pending := [], delivered := s.delivered ++ [⟨r, p⟩], serving := r, turn := s.turn + 1 } := by
  have hpending : (s.issue r q).pending = [⟨r, q, s.turn + Config.patience s.turn⟩] := by
    rw [State.issue_pending, hs, List.nil_append]
  obtain ⟨p, hread, hstep⟩ := step_eq_of_select (State.select_of_one_requester hpending nofun)
  exact ⟨p, hread, fun es => by simp only [runEvents, onEvent, hstep, State.issue_delivered, State.issue_turn]⟩

/-- Settles O52: each of the two requests finds FXC idle, and the first response is read as the fault. -/
theorem faultsDoNotStick : Obligations.FaultsDoNotStick := by
  intro s r r' q q' v hs hq
  obtain ⟨p, hread, hrun⟩ := runEvents_issue_serve hs r q
  obtain ⟨p', hread', hrun'⟩ := runEvents_issue_serve (s := ⟨[], s.delivered ++ [⟨r, p⟩], r, s.turn + 1⟩) rfl r' q'
  refine ⟨p.r, p', hread', ?_⟩
  rw [hrun, hrun', ← Response.eq_of_read_fault (hread.trans hq)]
  simp [runEvents]

theorem State.faultFree_of_delivered {s t : State} {r : Nat} {p : Response} (hs : s.faultFree)
    (ht : t.delivered = s.delivered ++ [⟨r, p⟩]) (hp : p.st = .ok) : t.faultFree := by
  intro d hd
  rw [ht, List.mem_append, List.mem_singleton] at hd
  obtain hd | rfl := hd
  · exact hs d hd
  · exact hp

/-- Settles O56: the response a step delivers is that of a pending request, and the step leaves only requests that were
pending. -/
theorem faultFreeRunStaysFaultFree : Obligations.FaultFreeRunStaysFaultFree := by
  intro s t hfree hcontract hstep
  by_cases hs : s.pending = []
  · obtain rfl : s = t := Host.Outcome.next.inj ((step_of_pending_nil hs).symm.trans hstep)
    exact ⟨hfree, hcontract⟩
  · obtain ⟨sub, _, before, after, hsel, hsplit, rfl, _⟩ := State.select_of_pending_ne_nil hs
    obtain ⟨p, hread, hserve⟩ := step_eq_of_select hsel
    obtain rfl := Host.Outcome.next.inj (hserve.symm.trans hstep)
    rw [hsplit] at hcontract
    obtain ⟨w, hw⟩ := hcontract sub (by simp)
    have hremain : before ++ after ⊆ before ++ sub :: after :=
      ((List.sublist_cons_self sub after).append_left before).subset
    exact ⟨State.faultFree_of_delivered hfree rfl (Response.st_of_read_ok (hread.trans hw)),
      fun x hx => hcontract x (hremain hx)⟩

end Sys2Proof.Machine

/-! The statements of 70_reset_and_hazards.md about reset: nothing is owed right after it, and the reset event discards the
pending requests only (R150, R152). -/

namespace Sys2Proof.Machine

/-- The state after reset is one that a reset event leaves as it is. -/
theorem State.reset_resetEvent : State.reset.resetEvent = State.reset := rfl

theorem answersTo_of_delivered_nil {s : State} (hs : s.delivered = []) (r : Nat) : answersTo r s = [] := by
  rw [answersTo, hs, List.filter_nil, List.map_nil]

/-- Settles O49: after a reset a requester is promised what it has received, and after `State.reset` that is nothing. -/
theorem nothingPendingAtReset : Obligations.NothingPendingAtReset := by
  refine ⟨State.reset_pending, fun r => ?_⟩
  rw [← State.reset_resetEvent, promised_resetEvent]
  exact answersTo_of_delivered_nil State.reset_delivered r

theorem runEvents_reset (es : List HostEvent) (s : State) : runEvents (.reset :: es) s = runEvents es s.resetEvent := rfl

/-- Settles O53: a reset leaves FXC idle, and the request issued then is answered by `runEvents_issue_serve`. -/
theorem resetDiscardsPendingOnly : Obligations.ResetDiscardsPendingOnly := by
  intro s r q
  refine ⟨rfl, ?_⟩
  obtain ⟨p, hread, hrun⟩ := runEvents_issue_serve s.resetEvent_pending r q
  exact ⟨_, p, (runEvents_reset _ s).trans (hrun []), rfl, rfl, hread⟩

end Sys2Proof.Machine

/-! The statements of 70_reset_and_hazards.md and 60_exceptions.md about which states a step leaves: an idle FXC stays where
it is (log 6), and no state is without a next one (logs 1 and 6). -/

namespace Sys2Proof.Machine

/-- Settles O12: the branch of `step` in which no request is selected. -/
theorem idleStepChangesNothing : Obligations.IdleStepChangesNothing :=
  fun _ hidle => step_of_pending_nil hidle

/-- Settles O13: an idle state is its own next state, and any other state has a request to serve, whose answer, a fault
included, is delivered. -/
theorem stepAlwaysHasANextState : Obligations.StepAlwaysHasANextState := by
  intro s
  by_cases hidle : s.pending = []
  · exact ⟨s, step_of_pending_nil hidle⟩
  · obtain ⟨t, _, _, _, hstep, _⟩ := step_serves hidle
    exact ⟨t, hstep⟩

end Sys2Proof.Machine
